-- ==== Sys2Proof/Word.lean ====
section
/-! DEFINITION. The word types of NHME (00_scope.md R8, R15). -/

namespace Sys2Proof

/-- R15: a byte is an 8-bit unsigned value. -/
abbrev Byte := BitVec 8

/-- R8: a word of the 32-bit variant; also a 32-bit command-port register (R30). -/
abbrev Word32 := BitVec 32

/-- R8: a word of the 64-bit variant; also a 64-bit command-port register (R30). -/
abbrev Word64 := BitVec 64

end Sys2Proof
end

