-- ==== Sys2Proof/Config.lean ====
section
/-! DEFINITION. What an implementation of NHME fixes: the parameters of 00_scope.md R11, and the shape of the
configuration record that keeps the algorithm's numbers (92_eei_decisions.md D32). The numbers' values stand in
Sys2Proof/Machine/Numbers.lean. -/

namespace Sys2Proof

/-- R2, R8: the two variants of the engine, told apart by their word width. -/
inductive Width where
  | w32
  | w64
deriving DecidableEq, Repr

/-- R11, R79: the kinds of one-byte access that `MemAdmit` tells apart (named READ and WRITE by C10). -/
inductive AccessKind where
  | read
  | write
deriving DecidableEq, Repr

/-- A span `[base, base + size)` of host byte addresses. -/
structure Span where
  base : Nat
  size : Nat
deriving DecidableEq, Repr

/-- A span that host memory refuses for one kind of access (R79). -/
structure RefusedSpan where
  span : Span
  kind : AccessKind
deriving DecidableEq, Repr

/-- R11: the parameters of one NHME block on one platform, every legal value of each.
`MemAdmit` is held as the spans it refuses, so that it is plain data (DESIGN CHOICE, log 2); R87's addresses with
read side effects are held the same way (log 5). The algorithm's numbers are not here: they are "fixed algorithm
parameters, not configurable" (R133). -/
structure Config where
  /-- `N_CTX - 1`, so that exactly the legal values 1 to 255 of `N_CTX` exist (R11, U8). -/
  nCtxPred : Fin 255
  /-- `HOST_BIG_ENDIAN` (R11, R37, R153, U9). -/
  hostBigEndian : Bool
  /-- `VERSION_NUMBER` (R11, R38, U10). -/
  versionNumber : Word32
  /-- Where `MemAdmit` is false (R11, R79, U11). -/
  refused : List RefusedSpan
  /-- Where a byte read has side effects (R87, U12); a platform must refuse these addresses too. -/
  sideEffects : List Span
deriving DecidableEq, Repr, Inhabited

/-- `N_CTX` (R11, R40). -/
def Config.nCtx (c : Config) : Nat := c.nCtxPred.val + 1

/-- The parameters of the block that `State.reset` stands for: OPEN in the spec (D6, D7, D8, D34), so it has no body
and no statement can rest on a value of it (log 1). -/
opaque Config.block : Config

/-- D32: the algorithm's numbers for one width, kept in one record (R131, R132 and the amounts of R134 to R145). -/
structure Numbers (w : Nat) where
  prime1 : BitVec w
  prime2 : BitVec w
  prime3 : BitVec w
  prime4 : BitVec w
  prime5 : BitVec w
  /-- The rotate amount of the round (R134, R135). -/
  roundRot : Nat
  /-- The rotate amounts of the fold (R140, R141), for v1 to v4. -/
  foldRot1 : Nat
  foldRot2 : Nat
  foldRot3 : Nat
  foldRot4 : Nat
  /-- The rotate amount of the tail's whole-word step (R142, R143). -/
  tailWordRot : Nat
  /-- The rotate amount of the 64-bit tail's 4-byte step (R143); the 32-bit tail has no such step. -/
  tailHalfRot : Nat
  /-- The rotate amount of the tail's byte step (R142, R143). -/
  tailByteRot : Nat
  /-- The shift amounts of the avalanche's three steps (R144, R145). -/
  avalancheShift1 : Nat
  avalancheShift2 : Nat
  avalancheShift3 : Nat

end Sys2Proof
end

