-- ==== Sys2Proof/Syntax.lean ====
section
/-! DEFINITION. The commands of NHME: one constructor for each row of spec/opcode_table.json (30_encoding.md R101,
R102, R106). -/

namespace Sys2Proof

/-- The sixteen commands. `h` is the handle operand, bits 15:8 of the command word (R104); its range is checked by
`Instr.wellFormed`. Every other operand comes from an argument register (R105). -/
inductive Instr where
  | hash32
  | hash64
  | create32
  | create64
  | reset32 (h : Nat)
  | reset64 (h : Nat)
  | update32 (h : Nat)
  | update64 (h : Nat)
  | digest32 (h : Nat)
  | digest64 (h : Nat)
  | free32 (h : Nat)
  | free64 (h : Nat)
  | tocanon32
  | tocanon64
  | fromcanon32
  | fromcanon64
deriving DecidableEq, Repr

end Sys2Proof
end

