-- ==== Sys2Proof/WellFormed.lean ====
section
/-! DEFINITION. Which terms of `Instr` are commands of NHME: the handle is "a number from 0 to 255" (30_encoding.md
R104, R110). -/

namespace Sys2Proof

/-- R104, R110: an 8-bit handle. Whether it names a usable slot is decided when the command executes (R273). -/
def handleFits (h : Nat) : Bool := decide (h < 256)

/-- R104: a handle-bearing command's handle fits its field; a handle-free command has nothing to check. -/
def Instr.wellFormed : Instr → Bool
  | .hash32 => true
  | .hash64 => true
  | .create32 => true
  | .create64 => true
  | .reset32 h => handleFits h
  | .reset64 h => handleFits h
  | .update32 h => handleFits h
  | .update64 h => handleFits h
  | .digest32 h => handleFits h
  | .digest64 h => handleFits h
  | .free32 h => handleFits h
  | .free64 h => handleFits h
  | .tocanon32 => true
  | .tocanon64 => true
  | .fromcanon32 => true
  | .fromcanon64 => true

end Sys2Proof
end

