-- ==== Sys2Proof/Decode.lean ====
section
/-! DEFINITION. The decoder of 30_encoding.md R107, total over all 2^32 words, and the encoder of R100 and R106. -/

namespace Sys2Proof

/-- R108: why a word is illegal. Every one of them faults with ILLEGAL_COMMAND (R272). -/
inductive Illegal where
  /-- R103: a bit of RSV0 or RSV1 is set. -/
  | reservedBits
  /-- R101: OP is 0x0 or 0x9 to 0xF. -/
  | reservedOp
  /-- R104: a handle-free OP with H ≠ 0. -/
  | handleNotZero
deriving DecidableEq, Repr

/-- R100: RSV1, bits 31:16. -/
def fieldRsv1 (word : Word32) : BitVec 16 := word.extractLsb' 16 16

/-- R100, R104: H, bits 15:8. -/
def fieldH (word : Word32) : BitVec 8 := word.extractLsb' 8 8

/-- R100: RSV0, bits 7:5. -/
def fieldRsv0 (word : Word32) : BitVec 3 := word.extractLsb' 5 3

/-- R100, R102: W, bit 4. -/
def fieldW (word : Word32) : BitVec 1 := word.extractLsb' 4 1

/-- R100, R101: OP, bits 3:0. -/
def fieldOp (word : Word32) : BitVec 4 := word.extractLsb' 0 4

/-- R104: a handle-free operation is legal only with H = 0. -/
def handleFree (h : Nat) (i : Instr) : Except Illegal Instr :=
  if h = 0 then .ok i else .error .handleNotZero

/-- R107 for W = 0. -/
def decode32 (op h : Nat) : Except Illegal Instr :=
  match op with
  | 1 => handleFree h .hash32
  | 2 => handleFree h .create32
  | 3 => .ok (.reset32 h)
  | 4 => .ok (.update32 h)
  | 5 => .ok (.digest32 h)
  | 6 => .ok (.free32 h)
  | 7 => handleFree h .tocanon32
  | 8 => handleFree h .fromcanon32
  | _ => .error .reservedOp

/-- R107 for W = 1. -/
def decode64 (op h : Nat) : Except Illegal Instr :=
  match op with
  | 1 => handleFree h .hash64
  | 2 => handleFree h .create64
  | 3 => .ok (.reset64 h)
  | 4 => .ok (.update64 h)
  | 5 => .ok (.digest64 h)
  | 6 => .ok (.free64 h)
  | 7 => handleFree h .tocanon64
  | 8 => handleFree h .fromcanon64
  | _ => .error .reservedOp

/-- R107: the decoder, total over all words. -/
def decode (word : Word32) : Except Illegal Instr :=
  if fieldRsv1 word ≠ 0 ∨ fieldRsv0 word ≠ 0 then .error .reservedBits
  else if fieldW word = 1 then decode64 (fieldOp word).toNat (fieldH word).toNat
  else decode32 (fieldOp word).toNat (fieldH word).toNat

/-- R101, R106: the OP field of a command. -/
def Instr.opField : Instr → BitVec 4
  | .hash32 => 1
  | .hash64 => 1
  | .create32 => 2
  | .create64 => 2
  | .reset32 _ => 3
  | .reset64 _ => 3
  | .update32 _ => 4
  | .update64 _ => 4
  | .digest32 _ => 5
  | .digest64 _ => 5
  | .free32 _ => 6
  | .free64 _ => 6
  | .tocanon32 => 7
  | .tocanon64 => 7
  | .fromcanon32 => 8
  | .fromcanon64 => 8

/-- R102, R106: which variant a command selects. -/
def Instr.width : Instr → Width
  | .hash32 => .w32
  | .hash64 => .w64
  | .create32 => .w32
  | .create64 => .w64
  | .reset32 _ => .w32
  | .reset64 _ => .w64
  | .update32 _ => .w32
  | .update64 _ => .w64
  | .digest32 _ => .w32
  | .digest64 _ => .w64
  | .free32 _ => .w32
  | .free64 _ => .w64
  | .tocanon32 => .w32
  | .tocanon64 => .w64
  | .fromcanon32 => .w32
  | .fromcanon64 => .w64

/-- R104: the handle of a handle-bearing command. -/
def Instr.handle? : Instr → Option Nat
  | .hash32 => none
  | .hash64 => none
  | .create32 => none
  | .create64 => none
  | .reset32 h => some h
  | .reset64 h => some h
  | .update32 h => some h
  | .update64 h => some h
  | .digest32 h => some h
  | .digest64 h => some h
  | .free32 h => some h
  | .free64 h => some h
  | .tocanon32 => none
  | .tocanon64 => none
  | .fromcanon32 => none
  | .fromcanon64 => none

/-- R102: the W bit of a variant. -/
def widthBit : Width → BitVec 1
  | .w32 => 0
  | .w64 => 1

/-- R100: a command word from its fields H at bit 8, W at bit 4 and OP at bit 0, the reserved ones 0. -/
def commandWord (h : BitVec 8) (w : BitVec 1) (op : BitVec 4) : Word32 :=
  (h.setWidth 32 <<< 8) ||| (w.setWidth 32 <<< 4) ||| op.setWidth 32

/-- R106: the word of a command; H is 0 where the command takes no handle. -/
def encode (i : Instr) : Word32 :=
  commandWord (BitVec.ofNat 8 (i.handle?.getD 0)) (widthBit i.width) i.opField

/-- R106, column "mask of fixed bits". -/
def Instr.rowMask (i : Instr) : Word32 :=
  if i.handle?.isSome then 0xFFFF00FF#32 else 0xFFFFFFFF#32

/-- R106, column "word", with `hh` read as 00. -/
def Instr.rowMatch : Instr → Word32
  | .hash32 => 0x00000001#32
  | .hash64 => 0x00000011#32
  | .create32 => 0x00000002#32
  | .create64 => 0x00000012#32
  | .reset32 _ => 0x00000003#32
  | .reset64 _ => 0x00000013#32
  | .update32 _ => 0x00000004#32
  | .update64 _ => 0x00000014#32
  | .digest32 _ => 0x00000005#32
  | .digest64 _ => 0x00000015#32
  | .free32 _ => 0x00000006#32
  | .free64 _ => 0x00000016#32
  | .tocanon32 => 0x00000007#32
  | .tocanon64 => 0x00000017#32
  | .fromcanon32 => 0x00000008#32
  | .fromcanon64 => 0x00000018#32

/-- The command word whose low `nbits` bits are `w` and whose other bits are 0 (R100, R109: one 32-bit word written
whole to CMD; a register write has no byte order). -/
def tableWord (nbits w : Nat) : Word32 := BitVec.ofNat 32 (w % 2 ^ nbits)

/-- The command the decoder reads from a row's bits, numbered as spec/opcode_table.json numbers them. -/
def decodeTableWord (nbits w : Nat) : Option Instr :=
  match decode (tableWord nbits w) with
  | .ok i => some i
  | .error _ => none

end Sys2Proof
end

