-- ==== Sys2Proof/Machine/State.lean ====
section
/-! DEFINITION. The state of NHME and of its host, as plain data: 10_state.md, the host agent's memory
(20_memory.md R70) and the host's list of port actions (70_reset_and_hazards.md R321, R322). -/

namespace Sys2Proof.Machine

open Sys2Proof

/-! ## The command port (R30) -/

/-- R30: the eight command-port registers, and no others. -/
inductive PortReg where
  | cmd
  | ptr
  | len
  | val
  | result
  | status
  | config
  | version
deriving DecidableEq, Repr

/-- R32: the argument registers, which the host writes and the engine only reads. -/
inductive ArgReg where
  | ptr
  | len
  | val
deriving DecidableEq, Repr

/-- R39: the registers a host write does not change. -/
inductive ReadOnlyReg where
  | result
  | status
  | config
  | version
deriving DecidableEq, Repr

/-- R271: the nine result codes of STATUS.CODE. -/
inductive Code where
  /-- 0x00, completion. -/
  | ok
  /-- 0x01, fault (R272). -/
  | illegalCommand
  /-- 0x02, fault (R273). -/
  | badHandle
  /-- 0x03, fault (R274). -/
  | widthMismatch
  /-- 0x04, fault (R275). -/
  | notInitialized
  /-- 0x05, fault (R276). -/
  | nullPointer
  /-- 0x06, fault (R277). -/
  | rangeWrap
  /-- 0x07, fault (R278). -/
  | memoryFault
  /-- 0x10, completion (R279). -/
  | noContext
deriving DecidableEq, Repr

/-! ## The context file (R40) -/

/-- R43: the four lanes, W bits each. -/
structure Lanes (w : Nat) where
  v1 : BitVec w
  v2 : BitVec w
  v3 : BitVec w
  v4 : BitVec w
deriving DecidableEq, Repr

/-- R40: the accumulator of a READY slot. Only a READY slot has one (R49). -/
structure Accumulator (w : Nat) where
  /-- R43. -/
  lanes : Lanes w
  /-- R44: bytes fed since the last RESET, modulo 2^64. -/
  totalLen : Word64
  /-- R45: the stream has reached one superblock since the last RESET. -/
  large : Bool
  /-- R46: the carry-over buffer, SB bytes. -/
  mem : List Byte
  /-- R47: its fill count. -/
  memsize : Nat
deriving DecidableEq, Repr

/-- R40, R41, R49: what an allocated slot holds. An UNINIT slot has a width and nothing else; the fields of R43 to
R47 exist in a READY slot only. -/
inductive Slot where
  | uninit (width : Width)
  | ready32 (acc : Accumulator 32)
  | ready64 (acc : Accumulator 64)
deriving DecidableEq, Repr

/-- R41: the lifecycle state of a slot. -/
inductive Phase where
  | free
  | uninit
  | ready
deriving DecidableEq, Repr

/-- R40: the context file by slot number, in strictly rising order. A slot that is not listed is FREE and holds no
value (R49, R53; log 8). -/
abbrev ContextFile := List (Nat × Slot)

/-! ## Host memory (R70) -/

/-- R70: host memory as (address, byte) pairs, addresses strictly rising, no entry equal to `unlistedByte`. -/
abbrev Memory := List Host.Cell

/-- What an address that is not listed reads as: DESIGN CHOICE, unsafe (log 3). -/
abbrev unlistedByte : Byte := 0#8

/-- The one canonical form of a memory: strictly rising addresses of the 2^64-byte space (R70), no entry equal to what
an unlisted address reads as. -/
abbrev Memory.wf (m : Memory) : Prop :=
  m.Pairwise (fun x y => x.1 < y.1) ∧ ∀ c ∈ m, c.1 < 2 ^ 64 ∧ c.2 ≠ unlistedByte

/-! ## The host (R19, R321, R322) -/

/-- R322: the actions of the host, and the reset input of the platform (R310). -/
inductive HostAction where
  /-- `WR CMD, word` (R31). -/
  | writeCmd (word : Word32)
  /-- `WR PTR/LEN/VAL, v` (R32). -/
  | writeArg (r : ArgReg) (v : Word64)
  /-- `WR RESULT/STATUS/CONFIG/VERSION, v` (R39). -/
  | writeReadOnly (r : ReadOnlyReg) (v : Word64)
  /-- `RD reg` (R39). -/
  | readReg (r : PortReg)
  /-- A host write of one byte of host memory (R321). -/
  | writeMem (a : Nat) (b : Byte)
  /-- A host read of one byte of host memory (R322). -/
  | readMem (a : Nat)
  /-- The platform asserts the reset input between two commands (R310). -/
  | hardwareReset
deriving DecidableEq, Repr

/-- R322, column "what the host sees". -/
inductive Observation where
  /-- The value an `RD` returned, zero-extended to 64 bits. -/
  | reg (r : PortReg) (v : Word64)
  /-- The byte a host memory read returned. -/
  | byte (a : Nat) (b : Byte)
deriving DecidableEq, Repr

/-! ## The state -/

/-- The engine's registers and context file, the block's fixed parameters, and the host agent. -/
structure State where
  /-- R11: the parameters, fixed for the life of the block; CONFIG and VERSION are computed from them (R37, R38). -/
  config : Config
  /-- R31. -/
  cmd : Word32
  /-- R32. -/
  ptr : Word64
  /-- R32. -/
  len : Word64
  /-- R32. -/
  val : Word64
  /-- R33. -/
  result : Word64
  /-- R36. -/
  status : Word32
  /-- R40. -/
  ctx : ContextFile
  /-- R70: the host's memory. -/
  mem : Memory
  /-- R321: the host's actions that are still to come, the next one first. -/
  script : List HostAction
  /-- R34, R321: the index of the next action in the host's list. -/
  position : Nat
  /-- R322: what the host has seen, newest first (the model's own field, log 4). -/
  seen : List Observation
deriving DecidableEq, Repr

/-- Why a step stops with a fault. NHME's own faults are not here: they are next states with STATUS.FAULT = 1
(R283). -/
inductive Fault where
  /-- Raised by a host memory action, never by a command: its address is 2^64 or above, outside the address space of
  R70. Safe: no byte exists there (log 6). -/
  | addressOutsideSpace
deriving DecidableEq, Repr

/-- Why a step has no meaning. -/
inductive Refusal where
  /-- Raised by an arm of `exec` for a command without a meaning; no arm does. Safe. -/
  | notModelled (mnemonic : String)
  /-- Raised where a byte would be read whose read has side effects and which the platform admits all the same: "A
  model that admits such an address has no defined meaning for the read" (R87, U12). Safe (log 5). -/
  | sideEffectingRead
deriving DecidableEq, Repr

/-- R310, R53: the block after a hardware reset. The parameters are open (log 1); host memory lists nothing (log 3);
the host has listed no action yet (log 4). -/
def State.reset : State where
  config := Config.block
  cmd := 0
  ptr := 0
  len := 0
  val := 0
  result := 0
  status := 0
  ctx := []
  mem := []
  script := []
  position := 0
  seen := []

end Sys2Proof.Machine
end

