-- ==== Sys2Proof/Machine/Flags.lean ====
section
/-! DEFINITION. The flags of NHME, all of them (10_state.md R50): STATUS.CODE and STATUS.FAULT (R36, R271), and the
`large` flag of an accumulator with the length it is computed from (R44, R45, R222). -/

namespace Sys2Proof.Machine

open Sys2Proof

/-- R271, column "code". -/
def codeByte : Code → BitVec 8
  | .ok => 0x00#8
  | .illegalCommand => 0x01#8
  | .badHandle => 0x02#8
  | .widthMismatch => 0x03#8
  | .notInitialized => 0x04#8
  | .nullPointer => 0x05#8
  | .rangeWrap => 0x06#8
  | .memoryFault => 0x07#8
  | .noContext => 0x10#8

/-- R271, column "kind". -/
def codeIsFault : Code → Bool
  | .ok => false
  | .illegalCommand => true
  | .badHandle => true
  | .widthMismatch => true
  | .notInitialized => true
  | .nullPointer => true
  | .rangeWrap => true
  | .memoryFault => true
  | .noContext => false

/-- R36: STATUS.CODE, bits 7:0. -/
def statusCode (st : Word32) : BitVec 8 := st.extractLsb' 0 8

/-- R36: STATUS.FAULT, bit 8. -/
def statusFault (st : Word32) : Bool := st.getLsbD 8

/-- R36: write STATUS.CODE and no other bit. -/
def withCode (st : Word32) (c : Code) : Word32 := (st &&& 0xFFFFFF00#32) ||| (codeByte c).setWidth 32

/-- R36: set STATUS.FAULT and no other bit. -/
def withFault (st : Word32) : Word32 := st ||| 0x00000100#32

/-- R36, R39: what a read of STATUS gives: bits 31:9 read as 0. -/
def statusRead (st : Word32) : Word32 := st &&& 0x000001FF#32

/-- R222 (R44, R45): the length bookkeeping of UPDATE for `n` bytes. `large` is tested on the sum without wrap and once
set stays set; `total_len` wraps. `sb` is SB. -/
def noteLength {w : Nat} (sb : Nat) (c : Accumulator w) (n : Nat) : Accumulator w :=
  { c with
    large := c.large || decide (sb ≤ c.totalLen.toNat + n)
    totalLen := c.totalLen + BitVec.ofNat 64 n }

end Sys2Proof.Machine
end

