-- ==== Sys2Proof/Machine/Numbers.lean ====
section
/-! DEFINITION. The algorithm's numbers, one record for each width (92_eei_decisions.md D32). Every value is the spec's
from general knowledge (93_implementation_defined.md G2 to G4, G7 to G9, G11): UNVERIFIED by a source, unsafe if wrong
(log 9). -/

namespace Sys2Proof.Machine

open Sys2Proof

/-- R131, and the amounts of R134, R140, R142 and R144. The 32-bit tail has no half-word step. -/
def numbers32 : Numbers 32 where
  prime1 := 0x9E3779B1#32
  prime2 := 0x85EBCA77#32
  prime3 := 0xC2B2AE3D#32
  prime4 := 0x27D4EB2F#32
  prime5 := 0x165667B1#32
  roundRot := 13
  foldRot1 := 1
  foldRot2 := 7
  foldRot3 := 12
  foldRot4 := 18
  tailWordRot := 17
  tailHalfRot := 0
  tailByteRot := 11
  avalancheShift1 := 15
  avalancheShift2 := 13
  avalancheShift3 := 16

/-- R132, and the amounts of R135, R141, R143 and R145. -/
def numbers64 : Numbers 64 where
  prime1 := 0x9E3779B185EBCA87#64
  prime2 := 0xC2B2AE3D27D4EB4F#64
  prime3 := 0x165667B19E3779F9#64
  prime4 := 0x85EBCA77C2B2AE63#64
  prime5 := 0x27D4EB2F165667C5#64
  roundRot := 31
  foldRot1 := 1
  foldRot2 := 7
  foldRot3 := 12
  foldRot4 := 18
  tailWordRot := 27
  tailHalfRot := 23
  tailByteRot := 11
  avalancheShift1 := 33
  avalancheShift2 := 29
  avalancheShift3 := 32

end Sys2Proof.Machine
end

