-- ==== Sys2Proof/Machine/Mixing.lean ====
section
/-! DEFINITION. The mixing primitives and the word reader of 40_mixing_primitives.md: pure and total (R130), on words
of a width `w` (arithmetic modulo 2^w, 00_scope.md R13). What the two widths share is written once over their
`Numbers`; the variants stand at the end. -/

namespace Sys2Proof.Machine

open Sys2Proof

/-! ## Operators (R14) -/

/-- R14: `rotl_W(x, r)`, for 0 < r < W. -/
def rotl {w : Nat} (x : BitVec w) (r : Nat) : BitVec w := (x <<< r) ||| (x >>> (w - r))

/-- The bitwise OR of all of them (the `OR over k` of R150 and R250). -/
def orAll {w : Nat} : List (BitVec w) → BitVec w
  | [] => 0
  | x :: xs => x ||| orAll xs

/-! ## The word reader (R150 to R153) -/

/-- R15: `S[i]`. The rules read only inside S; outside it this gives 0. -/
def byteAt (S : List Byte) (i : Nat) : Byte := S.getD i 0#8

/-- R150: the little-endian W-bit word at offset `o` of `S`. -/
def readLE (w : Nat) (S : List Byte) (o : Nat) : BitVec w :=
  orAll ((List.range (w / 8)).map fun k => (byteAt S (o + k)).setWidth w <<< (8 * k))

/-- R150. -/
def readLE32 (S : List Byte) (o : Nat) : Word32 := readLE 32 S o

/-- R150. -/
def readLE64 (S : List Byte) (o : Nat) : Word64 := readLE 64 S o

/-- R152: `bswap_N(x)`: byte k of the result is byte N/8 - 1 - k of x. -/
def bswap (w : Nat) (x : BitVec w) : BitVec w :=
  orAll ((List.range (w / 8)).map fun k => (x.extractLsb' (8 * (w / 8 - 1 - k)) 8).setWidth w <<< (8 * k))

/-- R151: the word a host of the given byte order reads (`big` is HOST_BIG_ENDIAN). -/
def nativeWord (big : Bool) (w : Nat) (S : List Byte) (o : Nat) : BitVec w :=
  if big then bswap w (readLE w S o) else readLE w S o

/-- R151: the endian layer's word reader, the source's formulation. The rules use `readLE` (D40). -/
def readWord (big : Bool) (w : Nat) (S : List Byte) (o : Nat) : BitVec w :=
  if big then bswap w (nativeWord big w S o) else nativeWord big w S o

/-! ## Round, merge round, lanes, stripes (R134 to R139) -/

/-- R134, R135: `rotateLeft(acc + input * PRIME_2, R) * PRIME_1`. -/
def mixRound {w : Nat} (N : Numbers w) (acc input : BitVec w) : BitVec w :=
  rotl (acc + input * N.prime2) N.roundRot * N.prime1

/-- R134. -/
def round32 (acc input : Word32) : Word32 := mixRound numbers32 acc input

/-- R135. -/
def round64 (acc input : Word64) : Word64 := mixRound numbers64 acc input

/-- R136. -/
def merge64 (acc lane : Word64) : Word64 :=
  (acc ^^^ round64 0 lane) * numbers64.prime1 + numbers64.prime4

/-- R137: `laneInit_W(seed)`. -/
def laneInit {w : Nat} (N : Numbers w) (seed : BitVec w) : Lanes w where
  v1 := seed + N.prime1 + N.prime2
  v2 := seed + N.prime2
  v3 := seed + 0
  v4 := seed - N.prime1

/-- R138, R139: one superblock S; word k of S goes to lane k + 1. -/
def stripe {w : Nat} (N : Numbers w) (v : Lanes w) (S : List Byte) : Lanes w where
  v1 := mixRound N v.v1 (readLE w S 0)
  v2 := mixRound N v.v2 (readLE w S (w / 8))
  v3 := mixRound N v.v3 (readLE w S (2 * (w / 8)))
  v4 := mixRound N v.v4 (readLE w S (3 * (w / 8)))

/-! ## Fold (R140, R141) -/

/-- The rotate-and-add part of R140 and R141. -/
def rotateAdd {w : Nat} (N : Numbers w) (v : Lanes w) : BitVec w :=
  rotl v.v1 N.foldRot1 + rotl v.v2 N.foldRot2 + rotl v.v3 N.foldRot3 + rotl v.v4 N.foldRot4

/-- R140. -/
def fold32 (v : Lanes 32) : Word32 := rotateAdd numbers32 v

/-- R141: rotate-add, then the merge rounds with v1, v2, v3, v4 in that order. -/
def fold64 (v : Lanes 64) : Word64 :=
  merge64 (merge64 (merge64 (merge64 (rotateAdd numbers64 v) v.v1) v.v2) v.v3) v.v4

/-! ## Loops over blocks of bytes -/

/-- `count` rounds of a loop that feeds `f` the next `size` bytes each time (the `while i + size <= n` loops of R142,
R143, R180, R181 and R220 run `n / size` rounds). -/
def overBlocks {σ : Type} (f : σ → List Byte → σ) (size : Nat) : Nat → σ → List Byte → σ
  | 0, x, _ => x
  | count + 1, x, B => overBlocks f size count (f x (B.take size)) (B.drop size)

/-- The bytes a loop over whole blocks of `size` leaves. -/
def afterBlocks (size : Nat) (B : List Byte) : List Byte := B.drop (size * (B.length / size))

/-! ## Tail absorption (R142, R143) -/

/-- R142: the step for one 4-byte word. -/
def tailWord32 (h : Word32) (S : List Byte) : Word32 :=
  rotl (h + readLE32 S 0 * numbers32.prime3) numbers32.tailWordRot * numbers32.prime4

/-- R142: the step for one byte. -/
def tailByte32 (h : Word32) (b : Byte) : Word32 :=
  rotl (h + b.setWidth 32 * numbers32.prime5) numbers32.tailByteRot * numbers32.prime1

/-- R142. -/
def tail32 (h : Word32) (T : List Byte) : Word32 :=
  (afterBlocks 4 T).foldl tailByte32 (overBlocks tailWord32 4 (T.length / 4) h T)

/-- R143: the step for one 8-byte word. -/
def tailWord64 (h : Word64) (S : List Byte) : Word64 :=
  rotl (h ^^^ round64 0 (readLE64 S 0)) numbers64.tailWordRot * numbers64.prime1 + numbers64.prime4

/-- R143: the step for one 4-byte word. -/
def tailHalf64 (h : Word64) (S : List Byte) : Word64 :=
  rotl (h ^^^ ((readLE32 S 0).setWidth 64 * numbers64.prime1)) numbers64.tailHalfRot * numbers64.prime2
    + numbers64.prime3

/-- R143: the step for one byte. -/
def tailByte64 (h : Word64) (b : Byte) : Word64 :=
  rotl (h ^^^ (b.setWidth 64 * numbers64.prime5)) numbers64.tailByteRot * numbers64.prime1

/-- R143, after the 8-byte loop: at most one 4-byte step, then single bytes. -/
def tailRest64 (h : Word64) (T : List Byte) : Word64 :=
  if 4 ≤ T.length then (T.drop 4).foldl tailByte64 (tailHalf64 h (T.take 4))
  else T.foldl tailByte64 h

/-- R143. -/
def tail64 (h : Word64) (T : List Byte) : Word64 :=
  tailRest64 (overBlocks tailWord64 8 (T.length / 8) h T) (afterBlocks 8 T)

/-! ## Avalanche (R144, R145) -/

/-- R144, R145: three shift-XOR steps with a multiply between each pair (D39). -/
def avalanche {w : Nat} (N : Numbers w) (h : BitVec w) : BitVec w :=
  let h1 := (h ^^^ (h >>> N.avalancheShift1)) * N.prime2
  let h2 := (h1 ^^^ (h1 >>> N.avalancheShift2)) * N.prime3
  h2 ^^^ (h2 >>> N.avalancheShift3)

/-- R144. -/
def avalanche32 (h : Word32) : Word32 := avalanche numbers32 h

/-- R145. -/
def avalanche64 (h : Word64) : Word64 := avalanche numbers64 h

end Sys2Proof.Machine
end

