-- ==== Sys2Proof/Machine/Engine.lean ====
section
/-! DEFINITION. The one generic design, "parameterized by word width" (00_scope.md R2), and its procedures: `start` and
`finalize` (40_mixing_primitives.md R146, R147), the digest functions `Hash_W` (41_oneshot.md R180, R181), `Update_W`
and `Digest_W` (42_streaming.md R220, R230). -/

namespace Sys2Proof.Machine

open Sys2Proof

/-- R2, R8, R9: what tells one variant from the other. -/
structure Variant (w : Nat) where
  /-- The variant's name in the W bit and in a slot's `width` (R42, R102). -/
  width : Width
  /-- R131, R132. -/
  numbers : Numbers w
  /-- R9: the superblock size. -/
  sb : Nat
  /-- R140, R141. -/
  fold : Lanes w → BitVec w
  /-- R142, R143. -/
  tail : BitVec w → List Byte → BitVec w
  /-- A READY slot of this variant. -/
  ready : Accumulator w → Slot
  /-- The accumulator of a READY slot of this variant. -/
  accOf : Slot → Option (Accumulator w)

/-- The accumulator of a READY 32-bit slot. -/
def acc32Of : Slot → Option (Accumulator 32)
  | .uninit _ => none
  | .ready32 c => some c
  | .ready64 _ => none

/-- The accumulator of a READY 64-bit slot. -/
def acc64Of : Slot → Option (Accumulator 64)
  | .uninit _ => none
  | .ready32 _ => none
  | .ready64 c => some c

/-- R2: the 32-bit variant; SB = 16 (R9). -/
def variant32 : Variant 32 where
  width := .w32
  numbers := numbers32
  sb := 16
  fold := fold32
  tail := tail32
  ready := .ready32
  accOf := acc32Of

/-- R2: the 64-bit variant; SB = 32 (R9). -/
def variant64 : Variant 64 where
  width := .w64
  numbers := numbers64
  sb := 32
  fold := fold64
  tail := tail64
  ready := .ready64
  accOf := acc64Of

/-! ## Start and finalize (R146, R147) -/

/-- R146: the running hash before the length is added. -/
def start {w : Nat} (V : Variant w) (large : Bool) (v : Lanes w) (seed : BitVec w) : BitVec w :=
  if large then V.fold v else seed + V.numbers.prime5

/-- R147: add the length modulo 2^W, absorb the tail, avalanche. -/
def finalize {w : Nat} (V : Variant w) (h : BitVec w) (n : Nat) (T : List Byte) : BitVec w :=
  avalanche V.numbers (V.tail (h + BitVec.ofNat w n) T)

/-! ## One-shot (R180, R181) -/

/-- The lanes after every whole superblock of `B`. -/
def mixAll {w : Nat} (V : Variant w) (v : Lanes w) (B : List Byte) : Lanes w :=
  overBlocks (stripe V.numbers) V.sb (B.length / V.sb) v B

/-- R180, R181: `Hash_W(B, seed)`. -/
def hashBytes {w : Nat} (V : Variant w) (B : List Byte) (seed : BitVec w) : BitVec w :=
  finalize V (start V (decide (V.sb ≤ B.length)) (mixAll V (laneInit V.numbers seed) B) seed) B.length
    (afterBlocks V.sb B)

/-- R180. -/
def hashBytes32 (B : List Byte) (seed : Word32) : Word32 := hashBytes variant32 B seed

/-- R181. -/
def hashBytes64 (B : List Byte) (seed : Word64) : Word64 := hashBytes variant64 B seed

/-! ## Streaming (R204, R205, R220 to R230) -/

/-- R204, R205: the accumulator RESET leaves. It writes every field and reads none (R206). -/
def freshAcc {w : Nat} (V : Variant w) (seed : BitVec w) : Accumulator w where
  lanes := laneInit V.numbers seed
  totalLen := 0
  large := false
  mem := List.replicate V.sb 0#8
  memsize := 0

/-- `buf[o .. o + |bs|) <- bs`. -/
def splice (buf : List Byte) (o : Nat) (bs : List Byte) : List Byte :=
  buf.take o ++ bs ++ buf.drop (o + bs.length)

/-- R221: the short path, no lane changes. -/
def appendShort {w : Nat} (c : Accumulator w) (B : List Byte) : Accumulator w :=
  { c with mem := splice c.mem c.memsize B, memsize := c.memsize + B.length }

/-- R223: how many bytes of the input complete the buffer (0 when it is empty). -/
def completing {w : Nat} (V : Variant w) (c : Accumulator w) : Nat := if 0 < c.memsize then V.sb - c.memsize else 0

/-- R223: the buffer, if it holds bytes, is completed from `B` and mixed as one stripe. -/
def completeBuffer {w : Nat} (V : Variant w) (c : Accumulator w) (B : List Byte) : Accumulator w :=
  if 0 < c.memsize then
    let full := splice c.mem c.memsize (B.take (V.sb - c.memsize))
    { c with mem := full, lanes := stripe V.numbers c.lanes (full.take V.sb), memsize := 0 }
  else c

/-- R224: every whole superblock of the rest is mixed straight from the input. -/
def directStripes {w : Nat} (V : Variant w) (c : Accumulator w) (B : List Byte) : Accumulator w :=
  { c with lanes := mixAll V c.lanes B }

/-- R225: the bytes after the last whole superblock, if any, go to the start of the buffer. -/
def saveTail {w : Nat} (c : Accumulator w) (T : List Byte) : Accumulator w :=
  if T = [] then c else { c with mem := splice c.mem 0 T, memsize := T.length }

/-- R220: `Update_W(c, B)`. -/
def update {w : Nat} (V : Variant w) (c : Accumulator w) (B : List Byte) : Accumulator w :=
  let c1 := noteLength V.sb c B.length
  if c1.memsize + B.length < V.sb then appendShort c1 B
  else
    let rest := B.drop (completing V c1)
    saveTail (directStripes V (completeBuffer V c1 B) rest) (afterBlocks V.sb rest)

/-- R230: `Digest_W(c)`; v3 holds the seed while `large` is 0 (R48). -/
def digest {w : Nat} (V : Variant w) (c : Accumulator w) : BitVec w :=
  finalize V (start V c.large c.lanes c.lanes.v3) c.totalLen.toNat (c.mem.take c.memsize)

end Sys2Proof.Machine
end

