-- ==== Sys2Proof/Machine/Sparse.lean ====
section
/-! DEFINITION. Sparse data by number, as a list in rising order: the form of host memory and of the context file. -/

namespace Sys2Proof.Machine

/-- What is stored under `k`. -/
def sparseFind {α : Type} (k : Nat) : List (Nat × α) → Option α
  | [] => none
  | (j, x) :: rest => if j = k then some x else sparseFind k rest

/-- Store `x` under `k`, in order. -/
def sparseInsert {α : Type} (k : Nat) (x : α) : List (Nat × α) → List (Nat × α)
  | [] => [(k, x)]
  | (j, y) :: rest =>
    if k < j then (k, x) :: (j, y) :: rest
    else if j = k then (k, x) :: rest
    else (j, y) :: sparseInsert k x rest

/-- Store nothing under `k`. -/
def sparseErase {α : Type} (k : Nat) : List (Nat × α) → List (Nat × α)
  | [] => []
  | (j, y) :: rest => if j = k then sparseErase k rest else (j, y) :: sparseErase k rest

end Sys2Proof.Machine
end

