-- ==== Sys2Proof/Machine/Ops.lean ====
section
/-! DEFINITION. The named operations over host memory, the context file and the registers; the end of a command:
completion, the fault (60_exceptions.md R283) and, beside it, the hardware reset that alone undoes it (R285). -/

namespace Sys2Proof.Machine

open Sys2Proof

/-! ## Host memory (20_memory.md) -/

/-- R16, R70: `MemRead(addr, 1)`. -/
def Memory.read (m : Memory) (a : Nat) : Byte := (sparseFind a m).getD unlistedByte

/-- R16, R70: `MemWrite(addr, 1, v)`. Writing what an unlisted address reads as removes the entry, so that equal
memories are equal data. -/
def Memory.write (m : Memory) (a : Nat) (b : Byte) : Memory :=
  if b = unlistedByte then sparseErase a m else sparseInsert a b m

/-- R16: `MemBytes(p, n)`. -/
def Memory.bytes (m : Memory) (p n : Nat) : List Byte := (List.range n).map fun i => m.read (p + i)

/-- `MemWrite(p + k, 1, bs[k])` for every k. -/
def Memory.writeBytes (m : Memory) (p : Nat) : List Byte → Memory
  | [] => m
  | b :: bs => (m.write p b).writeBytes (p + 1) bs

/-- An address lies in a span. -/
def inSpan (sp : Span) (a : Nat) : Bool := decide (sp.base ≤ a) && decide (a < sp.base + sp.size)

/-- R11, R79: `MemAdmit(addr, kind)`: no refused span of that kind holds the address. -/
def admits (c : Config) (a : Nat) (k : AccessKind) : Bool :=
  c.refused.all fun r => !(decide (r.kind = k) && inSpan r.span a)

/-- R87: a read of this byte has side effects. -/
def readHasSideEffect (c : Config) (a : Nat) : Bool := c.sideEffects.any fun sp => inSpan sp a

/-! ## The context file (R40 to R53) -/

/-- R40: `h` is a slot number, 1 to `N_CTX`. Slot 1 always exists, since `N_CTX` is at least 1; asking for it first lets
the first CREATE after reset be evaluated whatever `N_CTX` is. -/
def hasSlot (c : Config) (h : Nat) : Bool := h != 0 && (h == 1 || decide (h ≤ c.nCtx))

/-- R273: the slot a handle names, if it is allocated: `h` is in 1 to `N_CTX` and `ctx[h].phase` is not FREE. -/
def State.slotAt (s : State) (h : Nat) : Option Slot :=
  match sparseFind h s.ctx with
  | none => none
  | some slot => if hasSlot s.config h then some slot else none

/-- R42: the width a slot was created for. -/
def slotWidth : Slot → Width
  | .uninit w => w
  | .ready32 _ => .w32
  | .ready64 _ => .w64

/-- R41: a slot's phase; one that is not listed is FREE. -/
def phaseOf : Option Slot → Phase
  | none => .free
  | some (.uninit _) => .uninit
  | some (.ready32 _) => .ready
  | some (.ready64 _) => .ready

/-- R203 (D25): the least FREE slot of 1 to `N_CTX`. `N_CTX` is at most 255 (R11). -/
def leastFree (c : Config) (ctx : ContextFile) : Option Nat :=
  (List.range' 1 255).find? fun h => hasSlot c h && (sparseFind h ctx).isNone

/-- `ctx[h] <- slot`. -/
def State.withSlot (s : State) (h : Nat) (slot : Slot) : State := { s with ctx := sparseInsert h slot s.ctx }

/-- R240: `ctx[h].phase <- FREE`; the slot's other fields lose their values (R49). -/
def State.freeSlot (s : State) (h : Nat) : State := { s with ctx := sparseErase h s.ctx }

/-! ## Registers (R30 to R39) -/

/-- R33, D21: a result is written zero-extended. -/
def State.withResult {w : Nat} (s : State) (x : BitVec w) : State := { s with result := x.setWidth 64 }

/-- R37: the constant CONFIG. -/
def configRegister (c : Config) : Word32 :=
  (BitVec.ofNat 32 c.nCtx <<< 8) ||| (if c.hostBigEndian then 1#32 else 0#32)

/-- R30, R39: what a host read of a register returns, zero-extended to 64 bits; reserved bits read as 0. -/
def State.readReg (s : State) : PortReg → Word64
  | .cmd => s.cmd.setWidth 64
  | .ptr => s.ptr
  | .len => s.len
  | .val => s.val
  | .result => s.result
  | .status => (statusRead s.status).setWidth 64
  | .config => (configRegister s.config).setWidth 64
  | .version => s.config.versionNumber.setWidth 64

/-- R32: the host's write of an argument register. -/
def State.writeArg (s : State) (r : ArgReg) (v : Word64) : State :=
  match r with
  | .ptr => { s with ptr := v }
  | .len => { s with len := v }
  | .val => { s with val := v }

/-- R30: a register's byte offset from the block's base. -/
def regOffset : PortReg → Nat
  | .cmd => 0x00
  | .ptr => 0x08
  | .len => 0x10
  | .val => 0x18
  | .result => 0x20
  | .status => 0x28
  | .config => 0x30
  | .version => 0x38

/-- R30: a register's width in bits. -/
def regBits : PortReg → Nat
  | .cmd => 32
  | .ptr => 64
  | .len => 64
  | .val => 64
  | .result => 64
  | .status => 32
  | .config => 32
  | .version => 32

/-- R30: the register at a byte offset. -/
def regAtOffset (o : Nat) : Option PortReg :=
  [PortReg.cmd, .ptr, .len, .val, .result, .status, .config, .version].find? fun r => regOffset r == o

/-! ## How a command ends (R270, R283, R294) -/

/-- R36: STATUS.FAULT of the state. -/
def State.faulted (s : State) : Bool := statusFault s.status

/-- R294: completion: CODE is written, FAULT keeps its value. -/
def State.complete (s : State) (c : Code) : State := { s with status := withCode s.status c }

/-- R283: fault entry, the one shared operation: CODE and FAULT are written and nothing else. NHME has no vector,
handler or saved register, so control does not go anywhere. -/
def State.raiseFault (s : State) (c : Code) : State := { s with status := withFault (withCode s.status c) }

/-- R310, R311: the hardware reset, the only return from a fault (R285). Host memory and the host itself (its list of
actions and what it has seen) are untouched; CONFIG and VERSION hold their values. -/
def State.hardwareReset (s : State) : State :=
  { s with cmd := 0, ptr := 0, len := 0, val := 0, result := 0, status := 0, ctx := [] }

end Sys2Proof.Machine
end

