-- ==== Sys2Proof/Machine/Operands.lean ====
section
/-! DEFINITION. Operand assembly (30_encoding.md R105) and the checks of 60_exceptions.md R281 that the operands
undergo before a command has any effect, in that rule's order. Check 1, the decode check, is the port's
(Sys2Proof/Machine/Port.lean). -/

namespace Sys2Proof.Machine

open Sys2Proof

/-! ## Operands -/

/-- R105: `ptr = R[PTR]`, as a byte address. -/
abbrev State.ptrOperand (s : State) : Nat := s.ptr.toNat

/-- R105: `len = R[LEN]`, a byte count. -/
abbrev State.lenOperand (s : State) : Nat := s.len.toNat

/-- R105, D21: `R[VAL][W-1:0]`, the seed of HASH and RESET and the digest value of TOCANON. -/
def State.valOperand (s : State) (w : Nat) : BitVec w := s.val.setWidth w

/-- R10: CB = W / 8, the size of the canonical form. -/
def canonSize (w : Nat) : Nat := w / 8

/-- R184: the input of HASH and UPDATE, `MemBytes(R[PTR], R[LEN])`. -/
def State.input (s : State) : List Byte := s.mem.bytes s.ptrOperand s.lenOperand

/-! ## Checks 6 to 8: the byte span -/

/-- R281 checks 6 to 8, for the `n` bytes at PTR: the fault the command ends in, if any. -/
def State.spanFault (s : State) (k : AccessKind) (n : Nat) : Option Code :=
  if n ≠ 0 ∧ s.ptrOperand = 0 then some .nullPointer
  else if n ≠ 0 ∧ 2 ^ 64 < s.ptrOperand + n then some .rangeWrap
  else if (List.range n).all fun i => admits s.config (s.ptrOperand + i) k then none
  else some .memoryFault

/-- R87, U12: an admitted read of this span would have side effects, and then it has no meaning. -/
def State.spanHasSideEffect (s : State) (n : Nat) : Bool :=
  (List.range n).any fun i => readHasSideEffect s.config (s.ptrOperand + i)

/-- A command that reads the `n` bytes at PTR: the checks of the span, then `k` on the bytes (phase 1 and phase 2 of
R17). -/
def State.readingSpan (s : State) (n : Nat) (k : List Byte → State) : Host.Outcome State Fault Refusal :=
  match s.spanFault .read n with
  | some c => .next (s.raiseFault c)
  | none =>
    if s.spanHasSideEffect n then .refused .sideEffectingRead
    else .next (k (s.mem.bytes s.ptrOperand n))

/-- A command that writes the `n` bytes at PTR: the checks of the span, then its effect. -/
def State.writingSpan (s : State) (n : Nat) (t : State) : Host.Outcome State Fault Refusal :=
  match s.spanFault .write n with
  | some c => .next (s.raiseFault c)
  | none => .next t

/-! ## Checks 3 to 5: the handle -/

/-- R281 checks 3 and 4: the allocated slot of the command's width that the handle names, or the fault. -/
def State.slotOperand (s : State) (w : Width) (h : Nat) : Except Code Slot :=
  match s.slotAt h with
  | none => .error .badHandle
  | some slot => if slotWidth slot = w then .ok slot else .error .widthMismatch

/-- R281 checks 3, 4 and 5: the accumulator of the READY slot that the handle names, or the fault. -/
def State.accOperand {w : Nat} (s : State) (V : Variant w) (h : Nat) : Except Code (Accumulator w) :=
  match s.slotOperand V.width h with
  | .error c => .error c
  | .ok slot =>
    match V.accOf slot with
    | none => .error .notInitialized
    | some c => .ok c

end Sys2Proof.Machine
end

