-- ==== Sys2Proof/Machine/Canonical.lean ====
section
/-! DEFINITION. The canonical codec: TOCANON and FROMCANON (43_canonical.md R250 to R256). -/

namespace Sys2Proof.Machine

open Sys2Proof

/-- R250: `canon_W(x)`: byte k is `x[W-1-8k : W-8-8k]`, so byte 0 is the most significant. -/
def canon (w : Nat) (x : BitVec w) : List Byte :=
  (List.range (canonSize w)).map fun k => x.extractLsb' (w - 8 - 8 * k) 8

/-- R250: `uncanon_W(C)`. -/
def uncanon (w : Nat) (C : List Byte) : BitVec w :=
  orAll ((List.range (canonSize w)).map fun k => (byteAt C k).setWidth w <<< (w - 8 - 8 * k))

/-- The bytes a host of the given byte order lays down for its native word `x`, the lowest address first: byte k is the
k-th byte of x counted from the least significant one on a little-endian host, from the most significant one on a
big-endian host (R256). -/
def nativeBytes (big : Bool) (w : Nat) (x : BitVec w) : List Byte :=
  (List.range (canonSize w)).map fun k =>
    x.extractLsb' (if big then 8 * (canonSize w - 1 - k) else 8 * k) 8

/-- R256: the source's formulation of TOCANON, "swap first if host is little-endian". The rules use `canon`. -/
def hostCanon (big : Bool) (w : Nat) (x : BitVec w) : List Byte :=
  nativeBytes big w (if big then x else bswap w x)

/-- R256, "reading back works symmetrically": the native word the host reads from the bytes, swapped if the host is
little-endian. -/
def hostUncanon (big : Bool) (w : Nat) (C : List Byte) : BitVec w :=
  if big then nativeWord big w C 0 else bswap w (nativeWord big w C 0)

/-- R251, R252: the CB bytes at PTR get the canonical form of VAL[W-1:0]; RESULT is unchanged. -/
def tocanonCommand (w : Nat) (s : State) : Host.Outcome State Fault Refusal :=
  s.writingSpan (canonSize w)
    ({ s with mem := s.mem.writeBytes s.ptrOperand (canon w (s.valOperand w)) }.complete .ok)

/-- R251. -/
def execTocanon32 (s : State) : Host.Outcome State Fault Refusal := tocanonCommand 32 s

/-- R252. -/
def execTocanon64 (s : State) : Host.Outcome State Fault Refusal := tocanonCommand 64 s

/-- R253, R254: RESULT gets the value whose canonical form the CB bytes at PTR are. -/
def fromcanonCommand (w : Nat) (s : State) : Host.Outcome State Fault Refusal :=
  s.readingSpan (canonSize w) fun C => (s.withResult (uncanon w C)).complete .ok

/-- R253. -/
def execFromcanon32 (s : State) : Host.Outcome State Fault Refusal := fromcanonCommand 32 s

/-- R254. -/
def execFromcanon64 (s : State) : Host.Outcome State Fault Refusal := fromcanonCommand 64 s

end Sys2Proof.Machine
end

