-- ==== Sys2Proof/Machine/Oneshot.lean ====
section
/-! DEFINITION. The one-shot commands HASH32 and HASH64 (41_oneshot.md R184 to R187). -/

namespace Sys2Proof.Machine

open Sys2Proof

/-- R184, R185: HASH for a variant: the digest of `[PTR, PTR+LEN)` under the seed VAL[W-1:0] goes to RESULT. With
LEN = 0 neither PTR nor a byte is examined (R187). -/
def hashCommand {w : Nat} (V : Variant w) (s : State) : Host.Outcome State Fault Refusal :=
  s.readingSpan s.lenOperand fun B => (s.withResult (hashBytes V B (s.valOperand w))).complete .ok

/-- R184. -/
def execHash32 (s : State) : Host.Outcome State Fault Refusal := hashCommand variant32 s

/-- R185. -/
def execHash64 (s : State) : Host.Outcome State Fault Refusal := hashCommand variant64 s

end Sys2Proof.Machine
end

