-- ==== Sys2Proof/Machine/Streaming.lean ====
section
/-! DEFINITION. The streaming commands CREATE, RESET, UPDATE, DIGEST and FREE (42_streaming.md R200 to R243). -/

namespace Sys2Proof.Machine

open Sys2Proof

/-! ## CREATE (R201 to R203) -/

/-- R201 to R203: the least FREE slot becomes UNINIT; with none, the null handle and NO_CONTEXT, which is no fault
(R279). -/
def createCommand (w : Width) (s : State) : Host.Outcome State Fault Refusal :=
  match leastFree s.config s.ctx with
  | none => .next ((s.withResult (0#64)).complete .noContext)
  | some h => .next (((s.withSlot h (.uninit w)).withResult (BitVec.ofNat 64 h)).complete .ok)

/-- R201. -/
def execCreate32 (s : State) : Host.Outcome State Fault Refusal := createCommand .w32 s

/-- R202. -/
def execCreate64 (s : State) : Host.Outcome State Fault Refusal := createCommand .w64 s

/-! ## RESET (R204 to R206) -/

/-- R204, R205: the slot becomes READY with the accumulator of the seed VAL[W-1:0]; valid from UNINIT and READY. -/
def resetCommand {w : Nat} (V : Variant w) (h : Nat) (s : State) : Host.Outcome State Fault Refusal :=
  match s.slotOperand V.width h with
  | .error c => .next (s.raiseFault c)
  | .ok _ => .next ((s.withSlot h (V.ready (freshAcc V (s.valOperand w)))).complete .ok)

/-- R204. -/
def execReset32 (h : Nat) (s : State) : Host.Outcome State Fault Refusal := resetCommand variant32 h s

/-- R205. -/
def execReset64 (h : Nat) (s : State) : Host.Outcome State Fault Refusal := resetCommand variant64 h s

/-! ## UPDATE (R220 to R229) -/

/-- R226, R227: the bytes `[PTR, PTR+LEN)` are fed to the READY slot. The handle's checks come before the span's
(R281). -/
def updateCommand {w : Nat} (V : Variant w) (h : Nat) (s : State) : Host.Outcome State Fault Refusal :=
  match s.accOperand V h with
  | .error c => .next (s.raiseFault c)
  | .ok acc => s.readingSpan s.lenOperand fun B => (s.withSlot h (V.ready (update V acc B))).complete .ok

/-- R226. -/
def execUpdate32 (h : Nat) (s : State) : Host.Outcome State Fault Refusal := updateCommand variant32 h s

/-- R227. -/
def execUpdate64 (h : Nat) (s : State) : Host.Outcome State Fault Refusal := updateCommand variant64 h s

/-! ## DIGEST (R230 to R233) -/

/-- R231, R232: the digest of the READY slot goes to RESULT; the slot is unchanged (R233). -/
def digestCommand {w : Nat} (V : Variant w) (h : Nat) (s : State) : Host.Outcome State Fault Refusal :=
  match s.accOperand V h with
  | .error c => .next (s.raiseFault c)
  | .ok acc => .next ((s.withResult (digest V acc)).complete .ok)

/-- R231. -/
def execDigest32 (h : Nat) (s : State) : Host.Outcome State Fault Refusal := digestCommand variant32 h s

/-- R232. -/
def execDigest64 (h : Nat) (s : State) : Host.Outcome State Fault Refusal := digestCommand variant64 h s

/-! ## FREE (R240 to R243) -/

/-- R240 to R242: FREE of the null handle is a no-op (R281 check 2); otherwise the slot of the command's width becomes
FREE, whether it was UNINIT or READY. -/
def freeCommand (w : Width) (h : Nat) (s : State) : Host.Outcome State Fault Refusal :=
  if h = 0 then .next (s.complete .ok)
  else
    match s.slotOperand w h with
    | .error c => .next (s.raiseFault c)
    | .ok _ => .next ((s.freeSlot h).complete .ok)

/-- R241. -/
def execFree32 (h : Nat) (s : State) : Host.Outcome State Fault Refusal := freeCommand .w32 h s

/-- R242. -/
def execFree64 (h : Nat) (s : State) : Host.Outcome State Fault Refusal := freeCommand .w64 h s

end Sys2Proof.Machine
end

