-- ==== Sys2Proof/Machine/Dispatch.lean ====
section
/-! DEFINITION. What each command does, one arm a command, each one call of its meaning. -/

namespace Sys2Proof.Machine

def exec (i : Instr) (s : State) : Host.Outcome State Fault Refusal :=
  match i with
  -- 41_oneshot.md
  | .hash32 => Sys2Proof.Machine.execHash32 s
  | .hash64 => Sys2Proof.Machine.execHash64 s
  -- 42_streaming.md
  | .create32 => Sys2Proof.Machine.execCreate32 s
  | .create64 => Sys2Proof.Machine.execCreate64 s
  | .reset32 h => Sys2Proof.Machine.execReset32 h s
  | .reset64 h => Sys2Proof.Machine.execReset64 h s
  | .update32 h => Sys2Proof.Machine.execUpdate32 h s
  | .update64 h => Sys2Proof.Machine.execUpdate64 h s
  | .digest32 h => Sys2Proof.Machine.execDigest32 h s
  | .digest64 h => Sys2Proof.Machine.execDigest64 h s
  | .free32 h => Sys2Proof.Machine.execFree32 h s
  | .free64 h => Sys2Proof.Machine.execFree64 h s
  -- 43_canonical.md
  | .tocanon32 => Sys2Proof.Machine.execTocanon32 s
  | .tocanon64 => Sys2Proof.Machine.execTocanon64 s
  | .fromcanon32 => Sys2Proof.Machine.execFromcanon32 s
  | .fromcanon64 => Sys2Proof.Machine.execFromcanon64 s

end Sys2Proof.Machine
end

