-- ==== Sys2Proof/Machine/Port.lean ====
section
/-! DEFINITION. The host's actions (70_reset_and_hazards.md R322): what each does to NHME, to host memory and to what the
host has seen. -/

namespace Sys2Proof.Machine

open Sys2Proof

/-- R31, R107, R272: the command in CMD runs: an illegal word faults with ILLEGAL_COMMAND (R281 check 1), a legal one
has its meaning. -/
def runWord (word : Word32) (s : State) : Host.Outcome State Fault Refusal :=
  match decode word with
  | .error _ => .next (s.raiseFault .illegalCommand)
  | .ok i => exec i s

/-- R31, R284: a write of CMD is ignored while STATUS.FAULT = 1; otherwise CMD holds the word and the command runs to
completion within this step (R80). -/
def portWriteCmd (word : Word32) (s : State) : Host.Outcome State Fault Refusal :=
  if s.faulted then .next s else runWord word { s with cmd := word }

/-- R32, R284: a write of PTR, LEN or VAL is ignored while STATUS.FAULT = 1. -/
def portWriteArg (r : ArgReg) (v : Word64) (s : State) : State :=
  if s.faulted then s else s.writeArg r v

/-- R39: a read has no side effect on NHME; the host sees the value. -/
def portReadReg (r : PortReg) (s : State) : State := { s with seen := .reg r (s.readReg r) :: s.seen }

/-- R321, R322: a host write of host memory, allowed whatever STATUS holds. -/
def hostWriteMem (a : Nat) (b : Byte) (s : State) : Host.Outcome State Fault Refusal :=
  if a < 2 ^ 64 then .next { s with mem := s.mem.write a b } else .fault .addressOutsideSpace

/-- R322: a host read of host memory: the host sees the byte. A byte whose read has side effects has no meaning here
(R87, log 5). -/
def hostReadMem (a : Nat) (s : State) : Host.Outcome State Fault Refusal :=
  if 2 ^ 64 ≤ a then .fault .addressOutsideSpace
  else if readHasSideEffect s.config a then .refused .sideEffectingRead
  else .next { s with seen := .byte a (s.mem.read a) :: s.seen }

/-- R322: one action. -/
def hostAct (act : HostAction) (s : State) : Host.Outcome State Fault Refusal :=
  match act with
  | .writeCmd word => portWriteCmd word s
  | .writeArg r v => .next (portWriteArg r v s)
  | .writeReadOnly _ _ => .next s
  | .readReg r => .next (portReadReg r s)
  | .writeMem a b => hostWriteMem a b s
  | .readMem a => hostReadMem a s
  | .hardwareReset => .next s.hardwareReset

/-- R321: the host goes on to its next action. -/
def State.advance (s : State) (rest : List HostAction) : State :=
  { s with script := rest, position := s.position + 1 }

/-- R321, R322: the next action of the host's list is taken; NHME never acts on its own initiative, so with no action
left the state stays as it is. -/
def takeAction (s : State) : Host.Outcome State Fault Refusal :=
  match s.script with
  | [] => .next s
  | act :: rest => hostAct act (s.advance rest)

/-- `WR CMD` of a table row's word as the host's very next action (log 4). -/
def placeWord (s : State) (nbits w : Nat) : State := { s with script := .writeCmd (tableWord nbits w) :: s.script }

end Sys2Proof.Machine
end

