-- ==== Sys2Proof/Machine/Step.lean ====
section
/-! DEFINITION. One step of the machine: the host's next action. -/

namespace Sys2Proof.Machine

/-- R321: one step takes the next action of the host's list. -/
def step (s : State) : Host.Outcome State Fault Refusal := takeAction s

/-- `k` steps, stopping at the first fault or refusal. -/
def runSteps : Nat → State → Host.Outcome State Fault Refusal
  | 0, s => .next s
  | k + 1, s =>
    match step s with
    | .next t => runSteps k t
    | .fault r => .fault r
    | .refused r => .refused r

/-- The host's very next action writes this instruction to CMD, so that the next step runs it, unless STATUS.FAULT = 1,
when NHME accepts no command (R284; log 4). -/
def State.withFetchWord (s : State) (nbits w : Nat) : State := placeWord s nbits w

end Sys2Proof.Machine
end

