-- ==== Sys2Proof/Safety.lean ====
section
/-! DEFINITION. The terms claims about NHME use: what a legal state is, what a READY slot holds, when a command's
operands are usable, and when one stream has been fed to one slot. -/

namespace Sys2Proof.Safety

open Sys2Proof Sys2Proof.Machine

/-! ## Legal states -/

/-- R36, R271: STATUS holds one of the nine codes, FAULT exactly with a fault's code, and 0 in its reserved bits. -/
def statusLegal (st : Word32) : Prop :=
  ∃ c : Code, st = (codeByte c).setWidth 32 ||| (if codeIsFault c then 0x00000100#32 else 0#32)

/-- R48: the accumulator holds the stream `X` under `seed`: the lanes have mixed the whole superblocks of `X` in order,
the counters count `X`, and the buffer's first `memsize` bytes are the bytes of `X` after its last whole superblock. -/
structure HoldsStream {w : Nat} (V : Variant w) (seed : BitVec w) (X : List Byte) (c : Accumulator w) : Prop where
  lanes : c.lanes = mixAll V (laneInit V.numbers seed) X
  totalLen : c.totalLen = BitVec.ofNat 64 X.length
  large : c.large = decide (V.sb ≤ X.length)
  memsize : c.memsize = X.length % V.sb
  bufferSize : c.mem.length = V.sb
  buffer : c.mem.take c.memsize = afterBlocks V.sb X

/-- R48: a READY slot holds some stream under some seed; an UNINIT slot holds nothing (R49). -/
def slotLegal : Slot → Prop
  | .uninit _ => True
  | .ready32 c => ∃ seed X, HoldsStream variant32 seed X c
  | .ready64 c => ∃ seed X, HoldsStream variant64 seed X c

/-- R40: the context file is in its one form, lists slots 1 to `N_CTX` only, and each is legal. -/
def contextsLegal (c : Config) (ctx : ContextFile) : Prop :=
  ctx.Pairwise (fun x y => x.1 < y.1) ∧ ∀ e ∈ ctx, 1 ≤ e.1 ∧ e.1 ≤ c.nCtx ∧ slotLegal e.2

/-- The invariant of the machine: host memory and the context file have their canonical form, every READY slot holds a
stream (R48), STATUS is legal (R36). -/
structure StateLegal (s : State) : Prop where
  memory : s.mem.wf
  contexts : contextsLegal s.config s.ctx
  status : statusLegal s.status

/-! ## Usable operands -/

/-- R281 checks 6 to 8 pass for the `n` bytes at PTR. -/
structure SpanUsable (s : State) (k : AccessKind) (n : Nat) : Prop where
  notNull : n ≠ 0 → s.ptr ≠ 0
  noWrap : n ≠ 0 → s.ptr.toNat + n ≤ 2 ^ 64
  admitted : ∀ i < n, admits s.config (s.ptr.toNat + i) k = true

/-- R281 checks 6 to 8 pass for a read of the `n` bytes at PTR, and R87's assumption holds of them. -/
structure SpanReadable (s : State) (n : Nat) : Prop extends SpanUsable s .read n where
  plain : ∀ i < n, readHasSideEffect s.config (s.ptr.toNat + i) = false

/-- R71, R281: the access kind and byte count of a command with a byte span. -/
def byteSpan (i : Instr) (s : State) : Option (AccessKind × Nat) :=
  match i with
  | .hash32 => some (.read, s.len.toNat)
  | .hash64 => some (.read, s.len.toNat)
  | .create32 => none
  | .create64 => none
  | .reset32 _ => none
  | .reset64 _ => none
  | .update32 _ => some (.read, s.len.toNat)
  | .update64 _ => some (.read, s.len.toNat)
  | .digest32 _ => none
  | .digest64 _ => none
  | .free32 _ => none
  | .free64 _ => none
  | .tocanon32 => some (.write, 4)
  | .tocanon64 => some (.write, 8)
  | .fromcanon32 => some (.read, 4)
  | .fromcanon64 => some (.read, 8)

/-- R281 checks 3 to 5 pass for a command that comes to its byte span: an UPDATE's handle names a READY slot of its
width. -/
def spanReached (i : Instr) (s : State) : Prop :=
  match i with
  | .hash32 => True
  | .hash64 => True
  | .create32 => True
  | .create64 => True
  | .reset32 _ => True
  | .reset64 _ => True
  | .update32 h => ∃ c, s.slotAt h = some (.ready32 c)
  | .update64 h => ∃ c, s.slotAt h = some (.ready64 c)
  | .digest32 _ => True
  | .digest64 _ => True
  | .free32 _ => True
  | .free64 _ => True
  | .tocanon32 => True
  | .tocanon64 => True
  | .fromcanon32 => True
  | .fromcanon64 => True

/-! ## Command families -/

/-- UPDATE or DIGEST (R275). -/
def needsReady : Instr → Bool
  | .hash32 => false
  | .hash64 => false
  | .create32 => false
  | .create64 => false
  | .reset32 _ => false
  | .reset64 _ => false
  | .update32 _ => true
  | .update64 _ => true
  | .digest32 _ => true
  | .digest64 _ => true
  | .free32 _ => false
  | .free64 _ => false
  | .tocanon32 => false
  | .tocanon64 => false
  | .fromcanon32 => false
  | .fromcanon64 => false

/-- FREE (R240). -/
def isFree : Instr → Bool
  | .hash32 => false
  | .hash64 => false
  | .create32 => false
  | .create64 => false
  | .reset32 _ => false
  | .reset64 _ => false
  | .update32 _ => false
  | .update64 _ => false
  | .digest32 _ => false
  | .digest64 _ => false
  | .free32 _ => true
  | .free64 _ => true
  | .tocanon32 => false
  | .tocanon64 => false
  | .fromcanon32 => false
  | .fromcanon64 => false

/-- CREATE (R203). -/
def isCreate : Instr → Bool
  | .hash32 => false
  | .hash64 => false
  | .create32 => true
  | .create64 => true
  | .reset32 _ => false
  | .reset64 _ => false
  | .update32 _ => false
  | .update64 _ => false
  | .digest32 _ => false
  | .digest64 _ => false
  | .free32 _ => false
  | .free64 _ => false
  | .tocanon32 => false
  | .tocanon64 => false
  | .fromcanon32 => false
  | .fromcanon64 => false

/-- RESET (R204, R205). -/
def isReset : Instr → Bool
  | .hash32 => false
  | .hash64 => false
  | .create32 => false
  | .create64 => false
  | .reset32 _ => true
  | .reset64 _ => true
  | .update32 _ => false
  | .update64 _ => false
  | .digest32 _ => false
  | .digest64 _ => false
  | .free32 _ => false
  | .free64 _ => false
  | .tocanon32 => false
  | .tocanon64 => false
  | .fromcanon32 => false
  | .fromcanon64 => false

/-- TOCANON (R251, R252), the only command that writes host memory (R71). -/
def isTocanon : Instr → Bool
  | .hash32 => false
  | .hash64 => false
  | .create32 => false
  | .create64 => false
  | .reset32 _ => false
  | .reset64 _ => false
  | .update32 _ => false
  | .update64 _ => false
  | .digest32 _ => false
  | .digest64 _ => false
  | .free32 _ => false
  | .free64 _ => false
  | .tocanon32 => true
  | .tocanon64 => true
  | .fromcanon32 => false
  | .fromcanon64 => false

/-- R33: the commands that write RESULT: HASH, CREATE, DIGEST and FROMCANON. -/
def writesResult : Instr → Bool
  | .hash32 => true
  | .hash64 => true
  | .create32 => true
  | .create64 => true
  | .reset32 _ => false
  | .reset64 _ => false
  | .update32 _ => false
  | .update64 _ => false
  | .digest32 _ => true
  | .digest64 _ => true
  | .free32 _ => false
  | .free64 _ => false
  | .tocanon32 => false
  | .tocanon64 => false
  | .fromcanon32 => true
  | .fromcanon64 => true

/-- UPDATE (R226, R227). -/
def isUpdate : Instr → Bool
  | .hash32 => false
  | .hash64 => false
  | .create32 => false
  | .create64 => false
  | .reset32 _ => false
  | .reset64 _ => false
  | .update32 _ => true
  | .update64 _ => true
  | .digest32 _ => false
  | .digest64 _ => false
  | .free32 _ => false
  | .free64 _ => false
  | .tocanon32 => false
  | .tocanon64 => false
  | .fromcanon32 => false
  | .fromcanon64 => false

/-- The commands that may change slot `h`: RESET, UPDATE and FREE of `h` (CREATE takes a FREE slot only). -/
def drives (i : Instr) (h : Nat) : Prop :=
  i.handle? = some h ∧ (isReset i || isUpdate i || isFree i) = true

/-! ## One stream through one slot (R234) -/

/-- An action of the host that leaves slot `h` alone: no hardware reset, and no CMD write of a command that drives the
slot. It may write arguments and host memory, read anything, and run any other command, DIGEST of `h` among them. -/
def leavesSlot (act : HostAction) (h : Nat) : Prop :=
  act ≠ .hardwareReset ∧ ∀ word i, act = .writeCmd word → decode word = .ok i → ¬ drives i h

/-- From `s` the machine has come to `t`, step by step, having fed the bytes `B` to slot `h` by the command `feed`, none
of the feeding commands faulting, and nothing else having driven the slot: every other step takes an action that leaves
the slot alone, or it ends with FAULT = 1 and was no hardware reset, so that NHME faulted then (R283) or before (R284). -/
inductive Fed (feed : Instr) (h : Nat) (s : State) : List Byte → State → Prop
  | nothing : Fed feed h s [] s
  | fed {B : List Byte} {t t' : State} {word : Word32} {rest : List HostAction} :
      Fed feed h s B t → t.script = .writeCmd word :: rest → decode word = .ok feed →
      step t = .next t' → t'.faulted = false → Fed feed h s (B ++ t.input) t'
  | other {B : List Byte} {t t' : State} {act : HostAction} {rest : List HostAction} :
      Fed feed h s B t → t.script = act :: rest →
      leavesSlot act h ∨ (act ≠ .hardwareReset ∧ t'.faulted = true) →
      step t = .next t' → Fed feed h s B t'

/-! ## Safe runs -/

/-- A safe run: every step so far answered a next state and STATUS.FAULT is 0 at its end (U16). -/
def SafeRun (k : Nat) (s : State) : Prop := ∃ t, Sys2Proof.Machine.runSteps k s = .next t ∧ t.faulted = false

end Sys2Proof.Safety
end

