-- ==== Sys2Proof/Certificates/Slice0/Obligations.lean ====
section
/-! DEFINITION. What is claimed of NHME, for the provers. Each docstring names the rule of spec/ it formalises. -/

open Sys2Proof Sys2Proof.Machine Sys2Proof.Safety

/-! ## The command word (30_encoding.md) -/

/-- R107, R112: the seven examples, read and written. That the last three are illegal is R112's; by which name the decoder
rejects each of them is the model's choice (log 14). -/
def Obligations.SpecExampleWordsDecode : Prop :=
  decode 0x00000313#32 = .ok (.reset64 3) ∧ encode (.reset64 3) = 0x00000313#32 ∧
  decode 0x00000104#32 = .ok (.update32 1) ∧ encode (.update32 1) = 0x00000104#32 ∧
  decode 0x0000FF15#32 = .ok (.digest64 255) ∧ encode (.digest64 255) = 0x0000FF15#32 ∧
  decode 0x00000001#32 = .ok .hash32 ∧ encode .hash32 = 0x00000001#32 ∧
  decode 0x00000101#32 = .error .handleNotZero ∧
  decode 0x00010001#32 = .error .reservedBits ∧
  decode 0x00000009#32 = .error .reservedOp

/-- R100 to R107: decoding the word of a well-formed command gives the command, with its handle. -/
def Obligations.DecodeOfEncodeIsIdentity : Prop :=
  ∀ i : Instr, i.wellFormed = true → decode (encode i) = .ok i

/-- R106: "Every legal command word is exactly one row of this table": a word that decodes is the word of the one
command it decodes to, and that command is well-formed. -/
def Obligations.EncodeOfDecodeIsIdentity : Prop :=
  ∀ (word : Word32) (i : Instr), decode word = .ok i → i.wellFormed = true ∧ encode i = word

/-- R107, R108: the illegal words are exactly those with a reserved bit set, a reserved OP, or a handle on a
handle-free OP; the all-zero word is one. -/
def Obligations.IllegalWordsAreExactlyR108 : Prop :=
  (∀ word : Word32, (∃ e, decode word = .error e) ↔
    (word.extractLsb' 16 16 ≠ 0#16 ∨ word.extractLsb' 5 3 ≠ 0#3 ∨
      word.extractLsb' 0 4 = 0#4 ∨ 9 ≤ (word.extractLsb' 0 4).toNat ∨
      ((word.extractLsb' 0 4 = 1#4 ∨ word.extractLsb' 0 4 = 2#4 ∨ word.extractLsb' 0 4 = 7#4 ∨
        word.extractLsb' 0 4 = 8#4) ∧ word.extractLsb' 8 8 ≠ 0#8))) ∧
  ∃ e, decode 0x00000000#32 = .error e

/-- R272: an illegal word faults with ILLEGAL_COMMAND whatever the state holds: CMD keeps the word, STATUS the code. -/
def Obligations.IllegalCommandFaults : Prop :=
  ∀ (s : State) (word : Word32) (rest : List HostAction),
    s.faulted = false → s.script = .writeCmd word :: rest →
    (word.extractLsb' 16 16 ≠ 0#16 ∨ word.extractLsb' 5 3 ≠ 0#3 ∨
      word.extractLsb' 0 4 = 0#4 ∨ 9 ≤ (word.extractLsb' 0 4).toNat ∨
      ((word.extractLsb' 0 4 = 1#4 ∨ word.extractLsb' 0 4 = 2#4 ∨ word.extractLsb' 0 4 = 7#4 ∨
        word.extractLsb' 0 4 = 8#4) ∧ word.extractLsb' 8 8 ≠ 0#8)) →
    step s = .next { s with
      cmd := word
      status := withFault (withCode s.status .illegalCommand)
      script := rest
      position := s.position + 1 }

/-! ## The port and the host (10_state.md, 70_reset_and_hazards.md) -/

/-- R31, R80: a CMD write of a legal word runs that command in the same step, on the state in which CMD holds the word
and the host's list has moved on. -/
def Obligations.StepRunsTheDecodedCommand : Prop :=
  ∀ (s : State) (word : Word32) (rest : List HostAction) (i : Instr),
    s.faulted = false → s.script = .writeCmd word :: rest → decode word = .ok i →
    step s = exec i { s with cmd := word, script := rest, position := s.position + 1 }

/-- R322, the rows other than a CMD write: argument writes store, writes of read-only registers are ignored, reads show
the stored value, host memory is written and read, and an idle host leaves NHME as it is. -/
def Obligations.HostActionsDoWhatR322Says : Prop :=
  ∀ (s : State) (rest : List HostAction),
    (∀ v, s.faulted = false → s.script = .writeArg .ptr v :: rest →
      step s = .next { s with ptr := v, script := rest, position := s.position + 1 }) ∧
    (∀ v, s.faulted = false → s.script = .writeArg .len v :: rest →
      step s = .next { s with len := v, script := rest, position := s.position + 1 }) ∧
    (∀ v, s.faulted = false → s.script = .writeArg .val v :: rest →
      step s = .next { s with val := v, script := rest, position := s.position + 1 }) ∧
    (∀ r v, s.script = .writeReadOnly r v :: rest →
      step s = .next { s with script := rest, position := s.position + 1 }) ∧
    (∀ r, s.script = .readReg r :: rest →
      step s = .next { s with
        seen := .reg r (s.readReg r) :: s.seen, script := rest, position := s.position + 1 }) ∧
    (∀ a b, s.script = .writeMem a b :: rest → a < 2 ^ 64 →
      ∃ t, step s = .next t ∧ t = { s with mem := t.mem, script := rest, position := s.position + 1 } ∧
        t.mem.read a = b ∧ ∀ a', a' ≠ a → t.mem.read a' = s.mem.read a') ∧
    (∀ a, s.script = .readMem a :: rest → a < 2 ^ 64 → readHasSideEffect s.config a = false →
      step s = .next { s with
        seen := .byte a (s.mem.read a) :: s.seen, script := rest, position := s.position + 1 }) ∧
    (s.script = [] → step s = .next s)

/-- R284: while STATUS.FAULT = 1 any list of register writes, commands among them, has no effect, whatever the host does
after them; reads return the stored values. -/
def Obligations.FaultedPortAcceptsNothing : Prop :=
  (∀ (acts rest : List HostAction) (s : State), s.faulted = true → s.script = acts ++ rest →
    (∀ a ∈ acts, (∃ word, a = .writeCmd word) ∨ (∃ r v, a = .writeArg r v) ∨ ∃ r v, a = .writeReadOnly r v) →
    runSteps acts.length s = .next { s with script := rest, position := s.position + acts.length }) ∧
  (∀ (s : State) (r : PortReg) (rest : List HostAction), s.faulted = true → s.script = .readReg r :: rest →
    step s = .next { s with
      seen := .reg r (s.readReg r) :: s.seen, script := rest, position := s.position + 1 })

/-- R285: no command clears STATUS.FAULT; a step clears it only by a hardware reset, and that always does and frees
every slot. Faults do not nest: a step that starts with FAULT = 1 and leaves it set leaves all of STATUS. -/
def Obligations.OnlyHardwareResetClearsFault : Prop :=
  (∀ (i : Instr) (s t : State), s.faulted = true → exec i s = .next t → t.faulted = true) ∧
  (∀ s t : State, s.faulted = true → step s = .next t → t.faulted = false →
    ∃ rest, s.script = .hardwareReset :: rest) ∧
  (∀ (s : State) (rest : List HostAction), s.script = .hardwareReset :: rest →
    ∃ t, step s = .next t ∧ t.faulted = false ∧ ∀ h, t.slotAt h = none) ∧
  (∀ s t : State, s.faulted = true → step s = .next t → t.faulted = true → t.status = s.status)

/-- R280: when a CMD write ends in a fault, CMD holds the faulting word, the arguments and RESULT are as they were, and
so is everything else but STATUS. -/
def Obligations.FaultRecordsItsCommand : Prop :=
  ∀ (s t : State) (word : Word32) (rest : List HostAction),
    s.faulted = false → s.script = .writeCmd word :: rest → step s = .next t → t.faulted = true →
    t = { s with cmd := word, status := t.status, script := rest, position := s.position + 1 } ∧
    ∃ c, codeIsFault c = true ∧ statusCode t.status = codeByte c

/-- R310, R311: what a hardware reset sets, faulted or not, and that it leaves host memory and the parameters alone.
That the host's list goes on after it, and that what the host has seen stays, is the model's choice (log 19). -/
def Obligations.HardwareResetSetsTheResetState : Prop :=
  ∀ (s : State) (rest : List HostAction), s.script = .hardwareReset :: rest →
    step s = .next { s with
      cmd := 0, ptr := 0, len := 0, val := 0, result := 0, status := 0, ctx := []
      script := rest, position := s.position + 1 }

/-- R53, R30: after reset every slot is FREE and every register reads as the table of R30 says. -/
def Obligations.RegistersAndSlotsAfterReset : Prop :=
  (∀ h, phaseOf (State.reset.slotAt h) = .free) ∧
  State.reset.readReg .cmd = 0 ∧ State.reset.readReg .ptr = 0 ∧ State.reset.readReg .len = 0 ∧
  State.reset.readReg .val = 0 ∧ State.reset.readReg .result = 0 ∧ State.reset.readReg .status = 0 ∧
  State.reset.readReg .config =
    ((BitVec.ofNat 32 Config.block.nCtx <<< 8) |||
      (if Config.block.hostBigEndian then 1#32 else 0#32)).setWidth 64 ∧
  State.reset.readReg .version = Config.block.versionNumber.setWidth 64

/-- R37: CONFIG's fields, and that no step changes what it or VERSION reads as. -/
def Obligations.ConfigRegisterIsConstant : Prop :=
  (∀ s : State,
    (s.readReg .config).extractLsb' 0 1 = (if s.config.hostBigEndian then 1#1 else 0#1) ∧
    (s.readReg .config).extractLsb' 1 7 = 0#7 ∧
    ((s.readReg .config).extractLsb' 8 8).toNat = s.config.nCtx ∧
    (s.readReg .config).extractLsb' 16 16 = 0#16) ∧
  (∀ s : State, 1 ≤ s.config.nCtx ∧ s.config.nCtx ≤ 255) ∧
  (∀ s t : State, step s = .next t →
    t.readReg .config = s.readReg .config ∧ t.readReg .version = s.readReg .version)

/-! ## How a command ends (60_exceptions.md) -/

/-- R283: fault entry writes STATUS.CODE and STATUS.FAULT and nothing else: no other bit of STATUS, no other register,
no slot, no byte of host memory. -/
def Obligations.FaultEntryWritesOnlyStatus : Prop :=
  ∀ (s : State) (c : Code),
    statusCode (s.raiseFault c).status = codeByte c ∧ statusFault (s.raiseFault c).status = true ∧
    (s.raiseFault c).status.extractLsb' 9 23 = s.status.extractLsb' 9 23 ∧
    s.raiseFault c = { s with status := (s.raiseFault c).status }

/-- R270: a command either completes with a non-fault code, FAULT unchanged, or it faults, writing only STATUS. -/
def Obligations.CommandCompletesOrFaultsPrecisely : Prop :=
  ∀ (i : Instr) (s t : State), exec i s = .next t →
    (∃ c, codeIsFault c = true ∧ t = { s with status := withFault (withCode s.status c) }) ∨
    (∃ c, codeIsFault c = false ∧ t.status = withCode s.status c ∧ (c = .noContext → isCreate i = true))

/-- R270: a command always ends in a next state, but for a reading command one of whose admitted bytes has a read with
side effects, which R87 (U12) gives no meaning: there the model refuses, which is the model's choice (log 5). -/
def Obligations.CommandsStopOnlyAtSideEffects : Prop :=
  ∀ (i : Instr) (s : State),
    (∃ t, exec i s = .next t) ∨
    (exec i s = .refused .sideEffectingRead ∧ ∃ n j, byteSpan i s = some (.read, n) ∧ j < n ∧
      admits s.config (s.ptr.toNat + j) .read = true ∧ readHasSideEffect s.config (s.ptr.toNat + j) = true)

/-- R32, R33, R71 and the rules of each command: what no command writes. RESULT changes only by HASH, CREATE, DIGEST and
FROMCANON, host memory only by TOCANON and there only in its CB bytes at PTR, a slot only by RESET, UPDATE and FREE of
that slot and by the CREATE whose RESULT is its number, which was not allocated; of STATUS only CODE and FAULT. -/
def Obligations.CommandFrames : Prop :=
  ∀ (i : Instr) (s t : State), exec i s = .next t →
    t.config = s.config ∧ t.cmd = s.cmd ∧ t.ptr = s.ptr ∧ t.len = s.len ∧ t.val = s.val ∧
    t.script = s.script ∧ t.position = s.position ∧ t.seen = s.seen ∧
    t.status.extractLsb' 9 23 = s.status.extractLsb' 9 23 ∧
    (writesResult i = false → t.result = s.result) ∧
    (isTocanon i = false → t.mem = s.mem) ∧
    (∀ n a, byteSpan i s = some (.write, n) → ¬ (s.ptr.toNat ≤ a ∧ a < s.ptr.toNat + n) →
      t.mem.read a = s.mem.read a) ∧
    (∀ h, isCreate i = false → ¬ drives i h → t.slotAt h = s.slotAt h) ∧
    (∀ h, isCreate i = true → s.slotAt h ≠ none → t.slotAt h = s.slotAt h) ∧
    (∀ h, isCreate i = true → t.result ≠ BitVec.ofNat 64 h → t.slotAt h = s.slotAt h)

/-- R273: RESET, UPDATE, DIGEST and FREE of a handle that names no allocated slot fault with BAD_HANDLE, but for FREE of
the null handle. -/
def Obligations.BadHandleFaults : Prop :=
  ∀ (i : Instr) (h : Nat) (s : State), i.handle? = some h → (isFree i = true → h ≠ 0) →
    (h = 0 ∨ s.config.nCtx < h ∨ phaseOf (s.slotAt h) = .free) →
    exec i s = .next { s with status := withFault (withCode s.status .badHandle) }

/-- R274: RESET, UPDATE, DIGEST and FREE of an allocated slot of the other width fault with WIDTH_MISMATCH. -/
def Obligations.WidthMismatchFaults : Prop :=
  ∀ (i : Instr) (h : Nat) (s : State) (slot : Slot), i.handle? = some h → s.slotAt h = some slot →
    slotWidth slot ≠ i.width →
    exec i s = .next { s with status := withFault (withCode s.status .widthMismatch) }

/-- R275: UPDATE and DIGEST of a slot created but never reset fault with NOT_INITIALIZED; RESET and FREE accept it. -/
def Obligations.NotInitializedFaults : Prop :=
  ∀ (i : Instr) (h : Nat) (s : State), i.handle? = some h → s.slotAt h = some (.uninit i.width) →
    (needsReady i = true →
      exec i s = .next { s with status := withFault (withCode s.status .notInitialized) }) ∧
    (isReset i = true ∨ isFree i = true → ∃ t, exec i s = .next t ∧ t.status = withCode s.status .ok)

/-- R276: with bytes to access and PTR = 0, HASH, UPDATE, TOCANON and FROMCANON fault with NULL_POINTER; TOCANON and
FROMCANON always have bytes to access; with LEN = 0 HASH and UPDATE do not fault, whatever PTR holds. -/
def Obligations.NullPointerFaults : Prop :=
  (∀ (i : Instr) (s : State) (k : AccessKind) (n : Nat), byteSpan i s = some (k, n) → spanReached i s →
    n ≠ 0 → s.ptr = 0 →
    exec i s = .next { s with status := withFault (withCode s.status .nullPointer) }) ∧
  (∀ (i : Instr) (s : State) (k : AccessKind), byteSpan i s = some (k, 0) → spanReached i s →
    ∃ t, exec i s = .next t ∧ t.status = withCode s.status .ok) ∧
  (∀ s : State, byteSpan .tocanon32 s = some (.write, 4) ∧ byteSpan .tocanon64 s = some (.write, 8) ∧
    byteSpan .fromcanon32 s = some (.read, 4) ∧ byteSpan .fromcanon64 s = some (.read, 8))

/-- R277: a span that passes the top of the address space faults with RANGE_WRAP. -/
def Obligations.RangeWrapFaults : Prop :=
  ∀ (i : Instr) (s : State) (k : AccessKind) (n : Nat), byteSpan i s = some (k, n) → spanReached i s →
    0 < n → s.ptr ≠ 0 → 2 ^ 64 < s.ptr.toNat + n →
    exec i s = .next { s with status := withFault (withCode s.status .rangeWrap) }

/-- R278: a span one of whose bytes host memory refuses faults with MEMORY_FAULT, and no byte is written. -/
def Obligations.MemoryFaultFaults : Prop :=
  ∀ (i : Instr) (s : State) (k : AccessKind) (n j : Nat), byteSpan i s = some (k, n) → spanReached i s →
    s.ptr ≠ 0 → s.ptr.toNat + n ≤ 2 ^ 64 → j < n → admits s.config (s.ptr.toNat + j) k = false →
    exec i s = .next { s with status := withFault (withCode s.status .memoryFault) }

/-- R271, R281: a command faults only with a code its row of R271 lists and only where that check fails, every check
before it having passed. -/
def Obligations.FaultsOnlyForTheirCause : Prop :=
  ∀ (i : Instr) (s : State) (c : Code), s.faulted = false → exec i s = .next (s.raiseFault c) →
    match c with
    | .ok => False
    | .illegalCommand => False
    | .badHandle => ∃ h, i.handle? = some h ∧ (isFree i = true → h ≠ 0) ∧
        (h = 0 ∨ s.config.nCtx < h ∨ phaseOf (s.slotAt h) = .free)
    | .widthMismatch => ∃ h slot, i.handle? = some h ∧ s.slotAt h = some slot ∧ slotWidth slot ≠ i.width
    | .notInitialized => needsReady i = true ∧ ∃ h, i.handle? = some h ∧ s.slotAt h = some (.uninit i.width)
    | .nullPointer => ∃ k n, byteSpan i s = some (k, n) ∧ spanReached i s ∧ n ≠ 0 ∧ s.ptr = 0
    | .rangeWrap => ∃ k n, byteSpan i s = some (k, n) ∧ spanReached i s ∧ n ≠ 0 ∧ s.ptr ≠ 0 ∧
        2 ^ 64 < s.ptr.toNat + n
    | .memoryFault => ∃ k n j, byteSpan i s = some (k, n) ∧ spanReached i s ∧ s.ptr ≠ 0 ∧
        s.ptr.toNat + n ≤ 2 ^ 64 ∧ j < n ∧ admits s.config (s.ptr.toNat + j) k = false
    | .noContext => False

/-- R279: CREATE with no FREE slot completes with RESULT = 0 and NO_CONTEXT, FAULT unchanged. -/
def Obligations.CreateWithoutFreeSlot : Prop :=
  ∀ s : State, (∀ h, 1 ≤ h → h ≤ s.config.nCtx → phaseOf (s.slotAt h) ≠ .free) →
    exec .create32 s = .next { s with result := 0, status := withCode s.status .noContext } ∧
    exec .create64 s = .next { s with result := 0, status := withCode s.status .noContext }

/-! ## What each command does when it runs (41, 42, 43) -/

/-- R184, R185: HASH32 and HASH64 complete on a readable span: RESULT gets the digest of `[PTR, PTR+LEN)` under the seed
VAL[W-1:0], zero-extended; CODE gets OK; nothing else changes. -/
def Obligations.HashCompletes : Prop :=
  ∀ s : State, SpanReadable s s.len.toNat →
    exec .hash32 s = .next { s with
      result := (hashBytes32 (s.mem.bytes s.ptr.toNat s.len.toNat) (s.val.extractLsb' 0 32)).setWidth 64
      status := withCode s.status .ok } ∧
    exec .hash64 s = .next { s with
      result := hashBytes64 (s.mem.bytes s.ptr.toNat s.len.toNat) s.val
      status := withCode s.status .ok }

/-- R201 to R203: CREATE32 and CREATE64 take the lowest FREE slot: it becomes UNINIT of the command's width, RESULT gets
its number, CODE gets OK; nothing else changes. -/
def Obligations.CreateTakesLowestFreeSlot : Prop :=
  ∀ (s : State) (h : Nat), 1 ≤ h → h ≤ s.config.nCtx → phaseOf (s.slotAt h) = .free →
    (∀ k, 1 ≤ k → k < h → phaseOf (s.slotAt k) ≠ .free) →
    (∃ t, exec .create32 s = .next t ∧ t.slotAt h = some (.uninit .w32) ∧ (∀ k, k ≠ h → t.slotAt k = s.slotAt k) ∧
      t = { s with ctx := t.ctx, result := BitVec.ofNat 64 h, status := withCode s.status .ok }) ∧
    (∃ t, exec .create64 s = .next t ∧ t.slotAt h = some (.uninit .w64) ∧ (∀ k, k ≠ h → t.slotAt k = s.slotAt k) ∧
      t = { s with ctx := t.ctx, result := BitVec.ofNat 64 h, status := withCode s.status .ok })

/-- R204: RESET32 of an allocated 32-bit slot, UNINIT or READY: lanes from the seed VAL[31:0], everything else zeroed,
READY, CODE = OK; no other slot, no RESULT, nothing else changes. -/
def Obligations.Reset32Completes : Prop :=
  ∀ (s : State) (h : Nat) (slot : Slot), s.slotAt h = some slot → slotWidth slot = .w32 →
    ∃ t, exec (.reset32 h) s = .next t ∧
      t.slotAt h = some (.ready32
        { lanes :=
            { v1 := s.val.extractLsb' 0 32 + 0x9E3779B1#32 + 0x85EBCA77#32
              v2 := s.val.extractLsb' 0 32 + 0x85EBCA77#32
              v3 := s.val.extractLsb' 0 32
              v4 := s.val.extractLsb' 0 32 - 0x9E3779B1#32 }
          totalLen := 0, large := false, mem := List.replicate 16 0#8, memsize := 0 }) ∧
      (∀ k, k ≠ h → t.slotAt k = s.slotAt k) ∧
      t = { s with ctx := t.ctx, status := withCode s.status .ok }

/-- R205: RESET64, as R204 with W = 64. -/
def Obligations.Reset64Completes : Prop :=
  ∀ (s : State) (h : Nat) (slot : Slot), s.slotAt h = some slot → slotWidth slot = .w64 →
    ∃ t, exec (.reset64 h) s = .next t ∧
      t.slotAt h = some (.ready64
        { lanes :=
            { v1 := s.val + 0x9E3779B185EBCA87#64 + 0xC2B2AE3D27D4EB4F#64
              v2 := s.val + 0xC2B2AE3D27D4EB4F#64
              v3 := s.val
              v4 := s.val - 0x9E3779B185EBCA87#64 }
          totalLen := 0, large := false, mem := List.replicate 32 0#8, memsize := 0 }) ∧
      (∀ k, k ≠ h → t.slotAt k = s.slotAt k) ∧
      t = { s with ctx := t.ctx, status := withCode s.status .ok }

/-- R226, R227: UPDATE32 and UPDATE64 complete on a READY slot of their width and a readable span: `Update_W` feeds the
slot the bytes `[PTR, PTR+LEN)`, CODE = OK; no other slot, no RESULT, nothing else changes. What `Update_W` leaves in the
buffer at memsize and above, which no rule reads (R46, U13), is the model's choice (log 10). -/
def Obligations.UpdateCompletes : Prop :=
  (∀ (s : State) (h : Nat) (c : Accumulator 32), s.slotAt h = some (.ready32 c) → SpanReadable s s.len.toNat →
    ∃ t, exec (.update32 h) s = .next t ∧
      t.slotAt h = some (.ready32 (update variant32 c (s.mem.bytes s.ptr.toNat s.len.toNat))) ∧
      (∀ k, k ≠ h → t.slotAt k = s.slotAt k) ∧
      t = { s with ctx := t.ctx, status := withCode s.status .ok }) ∧
  (∀ (s : State) (h : Nat) (c : Accumulator 64), s.slotAt h = some (.ready64 c) → SpanReadable s s.len.toNat →
    ∃ t, exec (.update64 h) s = .next t ∧
      t.slotAt h = some (.ready64 (update variant64 c (s.mem.bytes s.ptr.toNat s.len.toNat))) ∧
      (∀ k, k ≠ h → t.slotAt k = s.slotAt k) ∧
      t = { s with ctx := t.ctx, status := withCode s.status .ok })

/-- R231 to R233: DIGEST32 and DIGEST64 complete on a READY slot of their width: RESULT gets `Digest_W`, zero-extended,
CODE = OK; every slot and everything else is unchanged. -/
def Obligations.DigestCompletes : Prop :=
  (∀ (s : State) (h : Nat) (c : Accumulator 32), s.slotAt h = some (.ready32 c) →
    exec (.digest32 h) s = .next { s with
      result := (digest variant32 c).setWidth 64, status := withCode s.status .ok }) ∧
  (∀ (s : State) (h : Nat) (c : Accumulator 64), s.slotAt h = some (.ready64 c) →
    exec (.digest64 h) s = .next { s with result := digest variant64 c, status := withCode s.status .ok })

/-- R240 to R242: FREE32 and FREE64 of an allocated slot of their width make it FREE, UNINIT or READY before; of the null
handle they complete and change CODE only. -/
def Obligations.FreeCompletes : Prop :=
  (∀ (s : State) (h : Nat) (slot : Slot), s.slotAt h = some slot →
    (slotWidth slot = .w32 → ∃ t, exec (.free32 h) s = .next t ∧ phaseOf (t.slotAt h) = .free ∧
      (∀ k, k ≠ h → t.slotAt k = s.slotAt k) ∧ t = { s with ctx := t.ctx, status := withCode s.status .ok }) ∧
    (slotWidth slot = .w64 → ∃ t, exec (.free64 h) s = .next t ∧ phaseOf (t.slotAt h) = .free ∧
      (∀ k, k ≠ h → t.slotAt k = s.slotAt k) ∧ t = { s with ctx := t.ctx, status := withCode s.status .ok })) ∧
  (∀ s : State, exec (.free32 0) s = .next { s with status := withCode s.status .ok } ∧
    exec (.free64 0) s = .next { s with status := withCode s.status .ok })

/-- R251, R252: TOCANON32 and TOCANON64 complete on a writable span: byte k at PTR + k is the k-th byte of VAL[W-1:0]
from the most significant end, no other byte of memory changes, CODE = OK, RESULT and everything else are unchanged. -/
def Obligations.TocanonCompletes : Prop :=
  (∀ s : State, SpanUsable s .write 4 → ∃ t, exec .tocanon32 s = .next t ∧
    (∀ k, k < 4 → t.mem.read (s.ptr.toNat + k) = s.val.extractLsb' (24 - 8 * k) 8) ∧
    (∀ a, ¬ (s.ptr.toNat ≤ a ∧ a < s.ptr.toNat + 4) → t.mem.read a = s.mem.read a) ∧
    t = { s with mem := t.mem, status := withCode s.status .ok }) ∧
  (∀ s : State, SpanUsable s .write 8 → ∃ t, exec .tocanon64 s = .next t ∧
    (∀ k, k < 8 → t.mem.read (s.ptr.toNat + k) = s.val.extractLsb' (56 - 8 * k) 8) ∧
    (∀ a, ¬ (s.ptr.toNat ≤ a ∧ a < s.ptr.toNat + 8) → t.mem.read a = s.mem.read a) ∧
    t = { s with mem := t.mem, status := withCode s.status .ok })

/-- R253, R254: FROMCANON32 and FROMCANON64 complete on a readable span: bits 8j+7 to 8j of RESULT are the byte at
PTR + CB - 1 - j, the bits above the width are 0, CODE = OK, nothing else changes. -/
def Obligations.FromcanonCompletes : Prop :=
  (∀ s : State, SpanReadable s 4 → ∃ t, exec .fromcanon32 s = .next t ∧
    (∀ j, j < 4 → t.result.extractLsb' (8 * j) 8 = s.mem.read (s.ptr.toNat + (3 - j))) ∧
    t.result.extractLsb' 32 32 = 0#32 ∧
    t = { s with result := t.result, status := withCode s.status .ok }) ∧
  (∀ s : State, SpanReadable s 8 → ∃ t, exec .fromcanon64 s = .next t ∧
    (∀ j, j < 8 → t.result.extractLsb' (8 * j) 8 = s.mem.read (s.ptr.toNat + (7 - j))) ∧
    t = { s with result := t.result, status := withCode s.status .ok })

/-- R186: HASH32 and HASH64 write only RESULT and STATUS.CODE; and two of them with the same input bytes and the same
seed (VAL[31:0] for HASH32, R184; VAL for HASH64, R185) give the same RESULT, whatever state each runs in, whatever its
slots hold and wherever its bytes lie. -/
def Obligations.HashDependsOnItsBytesAndSeedOnly : Prop :=
  ∀ (i : Instr) (s s' t t' : State), i = .hash32 ∨ i = .hash64 →
    exec i s = .next t → t.faulted = false → exec i s' = .next t' → t'.faulted = false →
    t = { s with result := t.result, status := withCode s.status .ok } ∧
    (s'.len = s.len →
      (∀ k, k < s.len.toNat → s'.mem.read (s'.ptr.toNat + k) = s.mem.read (s.ptr.toNat + k)) →
      (i = .hash32 → s'.val.extractLsb' 0 32 = s.val.extractLsb' 0 32 → t'.result = t.result) ∧
      (i = .hash64 → s'.val = s.val → t'.result = t.result))

/-! ## The word reader and the codec (40_mixing_primitives.md, 43_canonical.md) -/

/-- R150: the byte at the lowest offset is the least significant. -/
def Obligations.WordReaderIsLittleEndian : Prop :=
  (∀ (S : List Byte) (o k : Nat) (hk : k < 4) (ho : o + 4 ≤ S.length),
    (readLE32 S o).extractLsb' (8 * k) 8 = S[o + k]) ∧
  (∀ (S : List Byte) (o k : Nat) (hk : k < 8) (ho : o + 8 ≤ S.length),
    (readLE64 S o).extractLsb' (8 * k) 8 = S[o + k])

/-- R152: `bswap_N` reverses the bytes. -/
def Obligations.BswapReversesBytes : Prop :=
  (∀ (x : Word32) (k : Nat), k < 4 → (bswap 32 x).extractLsb' (8 * k) 8 = x.extractLsb' (8 * (3 - k)) 8) ∧
  (∀ (x : Word64) (k : Nat), k < 8 → (bswap 64 x).extractLsb' (8 * k) 8 = x.extractLsb' (8 * (7 - k)) 8)

/-- R151: the source's word reader with host order gives the little-endian word for both host orders. -/
def Obligations.WordReaderIgnoresHostOrder : Prop :=
  (∀ x : Word32, bswap 32 (bswap 32 x) = x) ∧ (∀ x : Word64, bswap 64 (bswap 64 x) = x) ∧
  ∀ (big : Bool) (S : List Byte) (o : Nat),
    readWord big 32 S o = readLE32 S o ∧ readWord big 64 S o = readLE64 S o

/-- R255: the canonical form round-trips both ways, and TOCANON followed by FROMCANON from the same address, with the
bytes unwritten in between, gives back the value zero-extended. -/
def Obligations.CanonicalRoundTrip : Prop :=
  (∀ x : Word32, uncanon 32 (canon 32 x) = x) ∧ (∀ x : Word64, uncanon 64 (canon 64 x) = x) ∧
  (∀ C : List Byte, C.length = 4 → canon 32 (uncanon 32 C) = C) ∧
  (∀ C : List Byte, C.length = 8 → canon 64 (uncanon 64 C) = C) ∧
  (∀ s t u v : State, exec .tocanon32 s = .next t → t.faulted = false → u.ptr = s.ptr →
    (∀ k, k < 4 → u.mem.read (s.ptr.toNat + k) = t.mem.read (s.ptr.toNat + k)) →
    exec .fromcanon32 u = .next v → v.faulted = false → v.result = (s.val.extractLsb' 0 32).setWidth 64) ∧
  (∀ s t u v : State, exec .tocanon64 s = .next t → t.faulted = false → u.ptr = s.ptr →
    (∀ k, k < 8 → u.mem.read (s.ptr.toNat + k) = t.mem.read (s.ptr.toNat + k)) →
    exec .fromcanon64 u = .next v → v.faulted = false → v.result = s.val)

/-- R256: a host of either byte order that swaps first if it is little-endian lays down the canonical bytes, and reading
back works symmetrically. -/
def Obligations.CodecIgnoresHostOrder : Prop :=
  ∀ big : Bool,
    (∀ x : Word32, hostCanon big 32 x = canon 32 x) ∧ (∀ x : Word64, hostCanon big 64 x = canon 64 x) ∧
    (∀ C : List Byte, C.length = 4 → hostUncanon big 32 C = uncanon 32 C) ∧
    (∀ C : List Byte, C.length = 8 → hostUncanon big 64 C = uncanon 64 C)

/-! ## The engine (41_oneshot.md, 42_streaming.md) -/

/-- R182: the empty input, one-shot and as the digest of an empty stream. -/
def Obligations.EmptyInputIsAFunctionOfTheSeed : Prop :=
  (∀ seed : Word32, hashBytes32 [] seed = avalanche32 (seed + 0x165667B1#32) ∧
    digest variant32 (freshAcc variant32 seed) = hashBytes32 [] seed) ∧
  (∀ seed : Word64, hashBytes64 [] seed = avalanche64 (seed + 0x27D4EB2F165667C5#64) ∧
    digest variant64 (freshAcc variant64 seed) = hashBytes64 [] seed)

/-- R183: exactly SB bytes take the lane path with one stripe and an empty tail; SB - 1 bytes take the small-input path
with their whole body as the tail; k superblocks take the lane path and leave an empty tail; of 2^32 bytes or more the
32-bit hash adds the length modulo 2^32. -/
def Obligations.HashAtTheBoundaries : Prop :=
  (∀ (B : List Byte) (seed : Word32), B.length = 16 →
    hashBytes32 B seed = finalize variant32 (fold32 (stripe numbers32 (laneInit numbers32 seed) B)) 16 []) ∧
  (∀ (B : List Byte) (seed : Word64), B.length = 32 →
    hashBytes64 B seed = finalize variant64 (fold64 (stripe numbers64 (laneInit numbers64 seed) B)) 32 []) ∧
  (∀ (B : List Byte) (seed : Word32), B.length = 15 →
    hashBytes32 B seed = finalize variant32 (seed + 0x165667B1#32) 15 B) ∧
  (∀ (B : List Byte) (seed : Word64), B.length = 31 →
    hashBytes64 B seed = finalize variant64 (seed + 0x27D4EB2F165667C5#64) 31 B) ∧
  (∀ (B : List Byte) (seed : Word32) (k : Nat), 1 ≤ k → B.length = k * 16 →
    hashBytes32 B seed = finalize variant32 (fold32 (mixAll variant32 (laneInit numbers32 seed) B)) B.length []) ∧
  (∀ (B : List Byte) (seed : Word64) (k : Nat), 1 ≤ k → B.length = k * 32 →
    hashBytes64 B seed = finalize variant64 (fold64 (mixAll variant64 (laneInit numbers64 seed) B)) B.length []) ∧
  (∀ (B : List Byte) (seed : Word32), 2 ^ 32 ≤ B.length →
    hashBytes32 B seed = finalize variant32 (fold32 (mixAll variant32 (laneInit numbers32 seed) B))
      (B.length % 2 ^ 32) (afterBlocks 16 B)) ∧
  (∀ (B : List Byte) (k : Nat), (B.length = k * 16 → afterBlocks 16 B = []) ∧
    (B.length = k * 32 → afterBlocks 32 B = [])) ∧
  (∀ (h : Word32) (n : Nat) (T : List Byte), finalize variant32 h n T = finalize variant32 h (n % 2 ^ 32) T)

/-- R221: below one superblock the bytes are appended and no lane changes; at exactly one superblock the buffer is mixed
and is empty afterwards. -/
def Obligations.ShortUpdateOnlyAppends : Prop :=
  (∀ (c : Accumulator 32) (B : List Byte), c.mem.length = 16 → c.memsize + B.length < 16 →
    (update variant32 c B).lanes = c.lanes ∧ (update variant32 c B).memsize = c.memsize + B.length ∧
    (update variant32 c B).mem.take (c.memsize + B.length) = c.mem.take c.memsize ++ B) ∧
  (∀ (c : Accumulator 64) (B : List Byte), c.mem.length = 32 → c.memsize + B.length < 32 →
    (update variant64 c B).lanes = c.lanes ∧ (update variant64 c B).memsize = c.memsize + B.length ∧
    (update variant64 c B).mem.take (c.memsize + B.length) = c.mem.take c.memsize ++ B) ∧
  (∀ (c : Accumulator 32) (B : List Byte), c.mem.length = 16 → c.memsize < 16 → c.memsize + B.length = 16 →
    (update variant32 c B).lanes = stripe numbers32 c.lanes (c.mem.take c.memsize ++ B) ∧
    (update variant32 c B).memsize = 0) ∧
  (∀ (c : Accumulator 64) (B : List Byte), c.mem.length = 32 → c.memsize < 32 → c.memsize + B.length = 32 →
    (update variant64 c B).lanes = stripe numbers64 c.lanes (c.mem.take c.memsize ++ B) ∧
    (update variant64 c B).memsize = 0)

/-- R228: feeding X and then Y leaves what feeding X ++ Y leaves, in every field a rule reads; and the stripes mixed are
always the consecutive superblocks of the whole stream. -/
def Obligations.AnySplitFeedsTheSameStream : Prop :=
  (∀ (c : Accumulator 32) (X Y : List Byte), c.mem.length = 16 → c.memsize < 16 →
    let d := update variant32 (update variant32 c X) Y
    let e := update variant32 c (X ++ Y)
    d.lanes = e.lanes ∧ d.totalLen = e.totalLen ∧ d.large = e.large ∧ d.memsize = e.memsize ∧
      d.mem.take d.memsize = e.mem.take e.memsize) ∧
  (∀ (c : Accumulator 64) (X Y : List Byte), c.mem.length = 32 → c.memsize < 32 →
    let d := update variant64 (update variant64 c X) Y
    let e := update variant64 c (X ++ Y)
    d.lanes = e.lanes ∧ d.totalLen = e.totalLen ∧ d.large = e.large ∧ d.memsize = e.memsize ∧
      d.mem.take d.memsize = e.mem.take e.memsize) ∧
  (∀ (seed : Word32) (X B : List Byte) (c : Accumulator 32), HoldsStream variant32 seed X c →
    HoldsStream variant32 seed (X ++ B) (update variant32 c B)) ∧
  (∀ (seed : Word64) (X B : List Byte) (c : Accumulator 64), HoldsStream variant64 seed X c →
    HoldsStream variant64 seed (X ++ B) (update variant64 c B))

/-- R229: UPDATE with LEN = 0 of a READY slot that holds a stream completes with OK and changes no observable field,
whatever PTR holds. The slot is said to be equal in full: that the bytes of its buffer at memsize and above, which no rule
reads (R46, U13), are kept too is the model's choice (log 10). -/
def Obligations.EmptyUpdateChangesNothing : Prop :=
  (∀ (s : State) (h : Nat) (c : Accumulator 32) (seed : Word32) (X : List Byte), s.slotAt h = some (.ready32 c) →
    HoldsStream variant32 seed X c → s.len = 0 →
    ∃ t, exec (.update32 h) s = .next t ∧ (∀ k, t.slotAt k = s.slotAt k) ∧
      t = { s with ctx := t.ctx, status := withCode s.status .ok }) ∧
  (∀ (s : State) (h : Nat) (c : Accumulator 64) (seed : Word64) (X : List Byte), s.slotAt h = some (.ready64 c) →
    HoldsStream variant64 seed X c → s.len = 0 →
    ∃ t, exec (.update64 h) s = .next t ∧ (∀ k, t.slotAt k = s.slotAt k) ∧
      t = { s with ctx := t.ctx, status := withCode s.status .ok })

/-- R206: a second RESET with the same seed leaves every slot, and the whole port, as the first left them. -/
def Obligations.ResetIsIdempotent : Prop :=
  ∀ (i : Instr) (s t : State), isReset i = true → exec i s = .next t → t.faulted = false →
    ∃ u, exec i t = .next u ∧ (∀ k, u.slotAt k = t.slotAt k) ∧ u = { t with ctx := u.ctx }

/-- R234: "the central correctness contract of the whole design". A slot that a RESET with seed s has made READY and to
which, over any run of the machine, UPDATEs have fed the bytes B in any chunks, with DIGESTs, other commands and host
actions in between that leave the slot alone, gives a DIGEST equal to `Hash_W(B, s)`, for |B| < 2^64. -/
def Obligations.StreamingEqualsOneShot : Prop :=
  (∀ (h : Nat) (s0 s t : State) (B : List Byte) (w0 w : Word32) (rest0 rest : List HostAction),
    s0.script = .writeCmd w0 :: rest0 → decode w0 = .ok (.reset32 h) →
    step s0 = .next s → s.faulted = false →
    Fed (.update32 h) h s B t → B.length < 2 ^ 64 →
    t.faulted = false → t.script = .writeCmd w :: rest → decode w = .ok (.digest32 h) →
    ∃ u, step t = .next u ∧ u.faulted = false ∧ statusCode u.status = codeByte .ok ∧
      u.result = (hashBytes32 B (s0.val.extractLsb' 0 32)).setWidth 64) ∧
  (∀ (h : Nat) (s0 s t : State) (B : List Byte) (w0 w : Word32) (rest0 rest : List HostAction),
    s0.script = .writeCmd w0 :: rest0 → decode w0 = .ok (.reset64 h) →
    step s0 = .next s → s.faulted = false →
    Fed (.update64 h) h s B t → B.length < 2 ^ 64 →
    t.faulted = false → t.script = .writeCmd w :: rest → decode w = .ok (.digest64 h) →
    ∃ u, step t = .next u ∧ u.faulted = false ∧ statusCode u.status = codeByte .ok ∧
      u.result = hashBytes64 B s0.val)

/-- R48: a slot that a RESET has made READY keeps the properties (a) to (e) for the stream B fed since that RESET, over
any run of the machine in which nothing else drives the slot. -/
def Obligations.ReadySlotInvariants : Prop :=
  (∀ (h : Nat) (s0 s t : State) (B : List Byte) (w0 : Word32) (rest0 : List HostAction),
    s0.script = .writeCmd w0 :: rest0 → decode w0 = .ok (.reset32 h) →
    step s0 = .next s → s.faulted = false → Fed (.update32 h) h s B t →
    ∃ c c0, t.slotAt h = some (.ready32 c) ∧ s.slotAt h = some (.ready32 c0) ∧
      c.memsize = c.totalLen.toNat % 16 ∧
      (c.large = false → c.lanes = c0.lanes ∧ c.lanes.v3 = s0.val.extractLsb' 0 32) ∧
      c.memsize < 16 ∧
      c.mem.take c.memsize = B.drop (B.length - c.memsize) ∧
      (c.large = true ↔ 16 ≤ B.length) ∧
      c.totalLen = BitVec.ofNat 64 B.length ∧
      (B.length < 2 ^ 64 → (c.large = true ↔ 16 ≤ c.totalLen.toNat))) ∧
  (∀ (h : Nat) (s0 s t : State) (B : List Byte) (w0 : Word32) (rest0 : List HostAction),
    s0.script = .writeCmd w0 :: rest0 → decode w0 = .ok (.reset64 h) →
    step s0 = .next s → s.faulted = false → Fed (.update64 h) h s B t →
    ∃ c c0, t.slotAt h = some (.ready64 c) ∧ s.slotAt h = some (.ready64 c0) ∧
      c.memsize = c.totalLen.toNat % 32 ∧
      (c.large = false → c.lanes = c0.lanes ∧ c.lanes.v3 = s0.val) ∧
      c.memsize < 32 ∧
      c.mem.take c.memsize = B.drop (B.length - c.memsize) ∧
      (c.large = true ↔ 32 ≤ B.length) ∧
      c.totalLen = BitVec.ofNat 64 B.length ∧
      (B.length < 2 ^ 64 → (c.large = true ↔ 32 ≤ c.totalLen.toNat)))

/-! ## Slots over time and against one another -/

/-- R200: a slot's phase moves only by CREATE (FREE to UNINIT, the width set), RESET (UNINIT to READY) and FREE (to
FREE); everything else leaves it. -/
def Obligations.PhaseMovesOnlyByR200 : Prop :=
  ∀ (i : Instr) (s t : State) (h : Nat), exec i s = .next t →
    phaseOf (t.slotAt h) = phaseOf (s.slotAt h) ∨
    (phaseOf (s.slotAt h) = .free ∧ isCreate i = true ∧ t.slotAt h = some (.uninit i.width) ∧
      t.result = BitVec.ofNat 64 h) ∨
    (phaseOf (s.slotAt h) = .uninit ∧ isReset i = true ∧ i.handle? = some h ∧ phaseOf (t.slotAt h) = .ready) ∨
    (phaseOf (s.slotAt h) ≠ .free ∧ isFree i = true ∧ i.handle? = some h ∧ phaseOf (t.slotAt h) = .free)

/-- R42: an allocated slot keeps its width until it is freed. -/
def Obligations.WidthNeverChangesWhileAllocated : Prop :=
  ∀ (i : Instr) (s t : State) (h : Nat) (slot slot' : Slot), exec i s = .next t →
    s.slotAt h = some slot → t.slotAt h = some slot' → slotWidth slot' = slotWidth slot

/-- R243: after FREE h, every command that names h, of either width, faults with BAD_HANDLE (FREE of the null handle
apart). -/
def Obligations.StaleHandleFaults : Prop :=
  ∀ (i j : Instr) (s t : State) (h : Nat), isFree i = true → i.handle? = some h → h ≠ 0 →
    exec i s = .next t → t.faulted = false → j.handle? = some h →
    exec j t = .next { t with status := withFault (withCode t.status .badHandle) }

/-- R89: a command that names slot h reads and writes only slot h: from two states that differ in the other slots alone
it does the same, and it leaves the other slots of each. HASH, TOCANON and FROMCANON read and write no slot. -/
def Obligations.ContextsDoNotInteract : Prop :=
  (∀ (i : Instr) (h : Nat) (s s' t : State), i.handle? = some h → s' = { s with ctx := s'.ctx } →
    s'.slotAt h = s.slotAt h → exec i s = .next t →
    ∃ t', exec i s' = .next t' ∧ t' = { t with ctx := t'.ctx } ∧ t'.slotAt h = t.slotAt h ∧
      ∀ k, k ≠ h → t.slotAt k = s.slotAt k ∧ t'.slotAt k = s'.slotAt k) ∧
  (∀ (i : Instr) (s s' t : State), i.handle? = none → isCreate i = false → s' = { s with ctx := s'.ctx } →
    exec i s = .next t → exec i s' = .next { t with ctx := s'.ctx } ∧ t.ctx = s.ctx)

/-- R73, and R38 beside it: HOST_BIG_ENDIAN and VERSION_NUMBER change no result: under other values of them every
command gives the same next state but for the parameters themselves, which only CONFIG and VERSION show. -/
def Obligations.HostOrderAndVersionChangeNoResult : Prop :=
  (∀ (i : Instr) (s t : State) (big : Bool) (ver : Word32), exec i s = .next t →
    exec i { s with config := { s.config with hostBigEndian := big, versionNumber := ver } } =
      .next { t with config := { t.config with hostBigEndian := big, versionNumber := ver } }) ∧
  (∀ (s : State) (r : PortReg) (big : Bool) (ver : Word32), r ≠ .config → r ≠ .version →
    { s with config := { s.config with hostBigEndian := big, versionNumber := ver } : State }.readReg r =
      s.readReg r)

/-! ## The invariant -/

/-- The legal states of R30, R36, R40 and R48 are closed under every step of the machine, whatever the host does. -/
def Obligations.EveryStepKeepsTheInvariant : Prop :=
  ∀ s t : State, StateLegal s → step s = .next t → StateLegal t

/-- The state after reset is legal. -/
def Obligations.ResetStateIsLegal : Prop := StateLegal State.reset
end

