-- ==== Sys2Proof/Laws/Engine.lean ====
section
/-! SUPPORT. What the engine's procedures can do: loops over whole blocks of bytes, the carry-over buffer, and the
fields of an accumulator after `Update_W` (42_streaming.md R220 to R225). -/

namespace Sys2Proof.Laws

open Sys2Proof Sys2Proof.Machine

/-! ## Loops over blocks -/

theorem overBlocks_add {σ : Type} (f : σ → List Byte → σ) (size a b : Nat) (x : σ) (B : List Byte) :
    overBlocks f size (a + b) x B = overBlocks f size b (overBlocks f size a x B) (B.drop (size * a)) := by
  induction a generalizing x B with
  | zero => simp [overBlocks]
  | succ a ih =>
    rw [show a + 1 + b = (a + b) + 1 by omega, overBlocks, ih, overBlocks, List.drop_drop]
    congr 2
    rw [Nat.mul_succ, Nat.add_comm]

/-- A loop that stays inside `A` does not see what follows it. -/
theorem overBlocks_append {σ : Type} (f : σ → List Byte → σ) (size k : Nat) (x : σ) {A : List Byte} (B : List Byte)
    (h : size * k ≤ A.length) : overBlocks f size k x (A ++ B) = overBlocks f size k x A := by
  induction k generalizing x A with
  | zero => rfl
  | succ k ih =>
    have h1 : size ≤ A.length := by rw [Nat.mul_succ] at h; omega
    rw [overBlocks, overBlocks, List.take_append_of_le_length h1, List.drop_append_of_le_length h1]
    exact ih _ (by rw [List.length_drop]; rw [Nat.mul_succ] at h; omega)

theorem afterBlocks_length (size : Nat) (B : List Byte) : (afterBlocks size B).length = B.length % size := by
  rw [afterBlocks, List.length_drop]
  have := Nat.div_add_mod B.length size
  omega

theorem afterBlocks_short {size : Nat} {B : List Byte} (h : B.length < size) : afterBlocks size B = B := by
  rw [afterBlocks, Nat.div_eq_of_lt h, Nat.mul_zero, List.drop_zero]

/-- Whole blocks in front leave nothing behind. -/
theorem afterBlocks_append {size : Nat} {A : List Byte} (h : A.length % size = 0) (B : List Byte) :
    afterBlocks size (A ++ B) = afterBlocks size B := by
  obtain ⟨k, hk⟩ := Nat.dvd_of_mod_eq_zero h
  rw [afterBlocks, afterBlocks, List.length_append, hk]
  rcases Nat.eq_zero_or_pos size with rfl | hpos
  · have : A = [] := List.eq_nil_of_length_eq_zero (by simpa using hk)
    simp [this]
  · rw [Nat.mul_add_div hpos, Nat.mul_add, ← hk, List.drop_append]
    rw [List.drop_eq_nil_of_le (by omega), List.nil_append]
    congr 1
    omega

/-- A stream is its whole blocks and what is after them. -/
theorem blocks_append_afterBlocks (size : Nat) (B : List Byte) :
    B.take (size * (B.length / size)) ++ afterBlocks size B = B := List.take_append_drop _ _

theorem blocks_length_mod (size : Nat) (B : List Byte) :
    (B.take (size * (B.length / size))).length % size = 0 := by
  rw [List.length_take, Nat.min_eq_left (Nat.mul_div_le _ _), Nat.mul_mod_right]

/-! ## Stripes -/

theorem mixAll_short {w : Nat} {V : Variant w} (v : Lanes w) {B : List Byte} (h : B.length < V.sb) :
    mixAll V v B = v := by
  rw [mixAll, Nat.div_eq_of_lt h, overBlocks]

theorem mixAll_one {w : Nat} {V : Variant w} (hV : 0 < V.sb) (v : Lanes w) {S : List Byte} (h : S.length = V.sb) :
    mixAll V v S = stripe V.numbers v S := by
  rw [mixAll, h, Nat.div_self hV, overBlocks, overBlocks, ← h, List.take_length]

/-- Whole superblocks in front are mixed first. -/
theorem mixAll_append {w : Nat} {V : Variant w} (hV : 0 < V.sb) (v : Lanes w) {A : List Byte}
    (h : A.length % V.sb = 0) (B : List Byte) : mixAll V v (A ++ B) = mixAll V (mixAll V v A) B := by
  obtain ⟨k, hk⟩ := Nat.dvd_of_mod_eq_zero h
  have hdiv : A.length / V.sb = k := by rw [hk, Nat.mul_div_cancel_left _ hV]
  simp only [mixAll]
  rw [List.length_append, hdiv, hk, Nat.mul_add_div hV, overBlocks_add,
    overBlocks_append _ _ _ _ _ (by omega), ← hk, List.drop_left]

/-! ## The accumulator after an update -/

@[simp] theorem freshAcc_lanes {w : Nat} (V : Variant w) (seed : BitVec w) :
    (freshAcc V seed).lanes = laneInit V.numbers seed := rfl
@[simp] theorem freshAcc_totalLen {w : Nat} (V : Variant w) (seed : BitVec w) : (freshAcc V seed).totalLen = 0 := rfl
@[simp] theorem freshAcc_large {w : Nat} (V : Variant w) (seed : BitVec w) : (freshAcc V seed).large = false := rfl
@[simp] theorem freshAcc_mem {w : Nat} (V : Variant w) (seed : BitVec w) :
    (freshAcc V seed).mem = List.replicate V.sb 0#8 := rfl
@[simp] theorem freshAcc_memsize {w : Nat} (V : Variant w) (seed : BitVec w) : (freshAcc V seed).memsize = 0 := rfl

theorem splice_length {buf : List Byte} {o : Nat} {bs : List Byte} (h : o + bs.length ≤ buf.length) :
    (splice buf o bs).length = buf.length := by
  simp only [splice, List.length_append, List.length_take, List.length_drop]
  omega

/-- What is before and inside a spliced piece. -/
theorem take_splice {buf : List Byte} {o : Nat} {bs : List Byte} (h : o + bs.length ≤ buf.length) :
    (splice buf o bs).take (o + bs.length) = buf.take o ++ bs := by
  have h1 : (buf.take o ++ bs).length = o + bs.length := by
    rw [List.length_append, List.length_take, Nat.min_eq_left (by omega)]
  rw [splice, ← h1, List.take_left]

/-- R221: the short path. -/
theorem update_of_short {w : Nat} {V : Variant w} {c : Accumulator w} {B : List Byte} (h : c.memsize + B.length < V.sb) :
    update V c B = appendShort (noteLength V.sb c B.length) B := by
  rw [update]; exact if_pos h

/-- R223 to R225: the long path. -/
theorem update_of_long {w : Nat} {V : Variant w} {c : Accumulator w} {B : List Byte} (h : V.sb ≤ c.memsize + B.length) :
    update V c B =
      saveTail (directStripes V (completeBuffer V (noteLength V.sb c B.length) B) (B.drop (completing V c)))
        (afterBlocks V.sb (B.drop (completing V c))) := by
  rw [update]; exact if_neg (Nat.not_lt.2 h)

@[simp] theorem saveTail_totalLen {w : Nat} (c : Accumulator w) (T : List Byte) : (saveTail c T).totalLen = c.totalLen := by
  unfold saveTail; split <;> rfl
@[simp] theorem saveTail_large {w : Nat} (c : Accumulator w) (T : List Byte) : (saveTail c T).large = c.large := by
  unfold saveTail; split <;> rfl
@[simp] theorem saveTail_lanes {w : Nat} (c : Accumulator w) (T : List Byte) : (saveTail c T).lanes = c.lanes := by
  unfold saveTail; split <;> rfl
@[simp] theorem completeBuffer_totalLen {w : Nat} (V : Variant w) (c : Accumulator w) (B : List Byte) :
    (completeBuffer V c B).totalLen = c.totalLen := by unfold completeBuffer; split <;> rfl
@[simp] theorem completeBuffer_large {w : Nat} (V : Variant w) (c : Accumulator w) (B : List Byte) :
    (completeBuffer V c B).large = c.large := by unfold completeBuffer; split <;> rfl

/-- R222: the total length is counted on every path. -/
@[simp] theorem update_totalLen {w : Nat} (V : Variant w) (c : Accumulator w) (B : List Byte) :
    (update V c B).totalLen = c.totalLen + BitVec.ofNat 64 B.length := by
  rcases Nat.lt_or_ge (c.memsize + B.length) V.sb with h | h
  · rw [update_of_short h]; rfl
  · rw [update_of_long h]
    simp only [saveTail_totalLen, directStripes, completeBuffer_totalLen]; rfl

/-- R222: `large` is tested on the sum without wrap on every path. -/
@[simp] theorem update_large {w : Nat} (V : Variant w) (c : Accumulator w) (B : List Byte) :
    (update V c B).large = (c.large || decide (V.sb ≤ c.totalLen.toNat + B.length)) := by
  rcases Nat.lt_or_ge (c.memsize + B.length) V.sb with h | h
  · rw [update_of_short h]; rfl
  · rw [update_of_long h]
    simp only [saveTail_large, directStripes, completeBuffer_large]; rfl

/-- What is spliced in at the start is what the start holds. -/
theorem splice_zero_take {buf bs : List Byte} (h : bs.length ≤ buf.length) :
    (splice buf 0 bs).take bs.length = bs := by
  have := take_splice (buf := buf) (o := 0) (bs := bs) (by omega)
  simpa using this

/-- Everything an update does to the lanes and the buffer (R220 to R225): the pending bytes and the input together are
mixed superblock by superblock, and what is after the last whole one is pending. -/
theorem update_buffer_and_lanes {w : Nat} {V : Variant w} (hV : 0 < V.sb) {c : Accumulator w} (B : List Byte)
    (hm : c.mem.length = V.sb) (hs : c.memsize < V.sb) :
    (update V c B).lanes = mixAll V c.lanes (c.mem.take c.memsize ++ B) ∧
    (update V c B).memsize = (c.memsize + B.length) % V.sb ∧
    (update V c B).mem.length = V.sb ∧
    (update V c B).mem.take (update V c B).memsize = afterBlocks V.sb (c.mem.take c.memsize ++ B) := by
  have hP : (c.mem.take c.memsize).length = c.memsize := by rw [List.length_take]; omega
  rcases Nat.lt_or_ge (c.memsize + B.length) V.sb with h | h
  · rw [update_of_short h]
    have hl : (c.mem.take c.memsize ++ B).length < V.sb := by rw [List.length_append, hP]; exact h
    refine ⟨by rw [mixAll_short _ hl]; rfl, by rw [Nat.mod_eq_of_lt h]; rfl, ?_, ?_⟩
    · show (splice c.mem c.memsize B).length = _
      rw [splice_length (by omega), hm]
    · show (splice c.mem c.memsize B).take (c.memsize + B.length) = _
      rw [take_splice (by omega), afterBlocks_short hl]
  · rw [update_of_long h]
    have hk : completing V c ≤ B.length := by unfold completing; split <;> omega
    set rest := B.drop (completing V c) with hrest
    set c2 := completeBuffer V (noteLength V.sb c B.length) B with hc2
    have hc2l : c2.lanes = mixAll V c.lanes (c.mem.take c.memsize ++ B.take (completing V c)) ∧
        c2.mem.length = V.sb ∧ c2.memsize = 0 ∧
        (c.mem.take c.memsize ++ B.take (completing V c)).length % V.sb = 0 := by
      by_cases h0 : 0 < c.memsize
      · have hcomp : completing V c = V.sb - c.memsize := if_pos h0
        have e : c2 = _ := if_pos h0
        have ht : (B.take (V.sb - c.memsize)).length = V.sb - c.memsize := by
          rw [List.length_take]; rw [hcomp] at hk; omega
        have hfull : (splice c.mem c.memsize (B.take (V.sb - c.memsize))).take V.sb =
            c.mem.take c.memsize ++ B.take (V.sb - c.memsize) := by
          have := take_splice (buf := c.mem) (o := c.memsize) (bs := B.take (V.sb - c.memsize)) (by omega)
          rwa [ht, show c.memsize + (V.sb - c.memsize) = V.sb by omega] at this
        have hlen : (c.mem.take c.memsize ++ B.take (V.sb - c.memsize)).length = V.sb := by
          rw [List.length_append, hP, ht]; omega
        rw [hcomp]
        refine ⟨?_, ?_, by rw [e], by rw [hlen, Nat.mod_self]⟩
        · rw [e, mixAll_one hV _ hlen]
          show stripe V.numbers c.lanes ((splice c.mem c.memsize (B.take (V.sb - c.memsize))).take V.sb) = _
          rw [hfull]
        · rw [e]; show (splice c.mem c.memsize (B.take (V.sb - c.memsize))).length = _
          rw [splice_length (by omega), hm]
      · have hcomp : completing V c = 0 := if_neg h0
        have e : c2 = _ := if_neg h0
        have hz : c.memsize = 0 := by omega
        rw [hcomp, hz, List.take_zero, List.take_zero]
        refine ⟨?_, by rw [e]; exact hm, by rw [e]; exact hz, rfl⟩
        rw [e]; rw [mixAll_short]; rfl; simpa using hV
    obtain ⟨h1, h2, h3, h4⟩ := hc2l
    have hsplit : c.mem.take c.memsize ++ B = (c.mem.take c.memsize ++ B.take (completing V c)) ++ rest := by
      rw [List.append_assoc, List.take_append_drop]
    have hlrest : (c.memsize + B.length) % V.sb = rest.length % V.sb := by
      have : c.memsize + B.length = (c.mem.take c.memsize ++ B).length := by rw [List.length_append, hP]
      rw [this, hsplit, List.length_append, Nat.add_mod, h4, Nat.zero_add, Nat.mod_mod]
    rw [hsplit, mixAll_append hV _ h4, afterBlocks_append h4, hlrest]
    have htl : (afterBlocks V.sb rest).length = rest.length % V.sb := afterBlocks_length _ _
    have htlt : rest.length % V.sb < V.sb := Nat.mod_lt _ hV
    refine ⟨by rw [saveTail_lanes, directStripes, h1], ?_⟩
    unfold saveTail
    by_cases hT : afterBlocks V.sb rest = []
    · rw [if_pos hT]
      rw [hT] at htl
      refine ⟨?_, h2, ?_⟩
      · rw [← htl]; exact h3
      · rw [hT, directStripes, h3]; rfl
    · rw [if_neg hT]
      refine ⟨htl, ?_, ?_⟩
      · show (splice c2.mem 0 (afterBlocks V.sb rest)).length = _
        rw [splice_length (by omega), h2]
      · exact splice_zero_take (show _ ≤ c2.mem.length by omega)

end Sys2Proof.Laws
end

