-- ==== Sys2Proof/Laws/Flags.lean ====
section
/-! SUPPORT. What the flag operations do to the fields of STATUS (R36, R271), and to an accumulator (R222). -/

namespace Sys2Proof.Laws

open Sys2Proof Sys2Proof.Machine

@[simp] theorem statusCode_withCode (st : Word32) (c : Code) : statusCode (withCode st c) = codeByte c := by
  apply BitVec.eq_of_getLsbD_eq
  intro i hi
  have h : (0xFFFFFF00#32).getLsbD i = false := by interval_cases i <;> decide
  simp only [statusCode, withCode, BitVec.getLsbD_extractLsb', BitVec.getLsbD_or, BitVec.getLsbD_and, Nat.zero_add, h,
    Bool.and_false, Bool.false_or, BitVec.getLsbD_setWidth, hi, decide_true, Bool.true_and]
  simp [show i < 32 by omega]

@[simp] theorem statusFault_withCode (st : Word32) (c : Code) : statusFault (withCode st c) = statusFault st := by
  simp [statusFault, withCode]

@[simp] theorem statusFault_withFault (st : Word32) : statusFault (withFault st) = true := by
  simp [statusFault, withFault]

@[simp] theorem statusCode_withFault (st : Word32) : statusCode (withFault st) = statusCode st := by
  apply BitVec.eq_of_getLsbD_eq
  intro i hi
  have h : (0x00000100#32).getLsbD i = false := by interval_cases i <;> decide
  simp [statusCode, withFault, h]

/-- A code byte names one code. -/
theorem codeByte_injective {c d : Code} (h : codeByte c = codeByte d) : c = d := by
  cases c <;> cases d <;> first | rfl | exact absurd h (by decide)

@[simp] theorem noteLength_lanes {w : Nat} (sb : Nat) (c : Accumulator w) (n : Nat) :
    (noteLength sb c n).lanes = c.lanes := rfl
@[simp] theorem noteLength_totalLen {w : Nat} (sb : Nat) (c : Accumulator w) (n : Nat) :
    (noteLength sb c n).totalLen = c.totalLen + BitVec.ofNat 64 n := rfl
@[simp] theorem noteLength_large {w : Nat} (sb : Nat) (c : Accumulator w) (n : Nat) :
    (noteLength sb c n).large = (c.large || decide (sb ≤ c.totalLen.toNat + n)) := rfl
@[simp] theorem noteLength_mem {w : Nat} (sb : Nat) (c : Accumulator w) (n : Nat) : (noteLength sb c n).mem = c.mem := rfl
@[simp] theorem noteLength_memsize {w : Nat} (sb : Nat) (c : Accumulator w) (n : Nat) :
    (noteLength sb c n).memsize = c.memsize := rfl

end Sys2Proof.Laws
end

