-- ==== Sys2Proof/Laws/Sparse.lean ====
section
/-! SUPPORT. What the sparse-data operations can do: each key's value after an update, and the rising order. -/

namespace Sys2Proof.Laws

open Sys2Proof Sys2Proof.Machine

variable {α : Type}

@[simp] theorem sparseFind_nil (k : Nat) : sparseFind k ([] : List (Nat × α)) = none := rfl

@[simp] theorem sparseFind_insert_self (k : Nat) (x : α) (l : List (Nat × α)) :
    sparseFind k (sparseInsert k x l) = some x := by
  induction l with
  | nil => simp [sparseInsert, sparseFind]
  | cons e l ih =>
    obtain ⟨j, y⟩ := e
    by_cases h1 : k < j
    · simp [sparseInsert, sparseFind, h1]
    · by_cases h2 : j = k
      · simp [sparseInsert, sparseFind, h2]
      · simp [sparseInsert, sparseFind, h1, h2, ih]

theorem sparseFind_insert_other {j k : Nat} (h : j ≠ k) (x : α) (l : List (Nat × α)) :
    sparseFind j (sparseInsert k x l) = sparseFind j l := by
  induction l with
  | nil => simp [sparseInsert, sparseFind, Ne.symm h]
  | cons e l ih =>
    obtain ⟨i, y⟩ := e
    by_cases h1 : k < i
    · simp [sparseInsert, sparseFind, h1, Ne.symm h]
    · by_cases h2 : i = k
      · subst h2; simp [sparseInsert, sparseFind, Ne.symm h]
      · by_cases h3 : i = j
        · subst h3; simp [sparseInsert, sparseFind, h1, h2]
        · simp [sparseInsert, sparseFind, h1, h2, h3, ih]

@[simp] theorem sparseFind_erase_self (k : Nat) (l : List (Nat × α)) :
    sparseFind k (sparseErase k l) = none := by
  induction l with
  | nil => rfl
  | cons e l ih =>
    obtain ⟨i, y⟩ := e
    by_cases h : i = k
    · simp [sparseErase, h, ih]
    · simp [sparseErase, sparseFind, h, ih]

theorem sparseFind_erase_other {j k : Nat} (h : j ≠ k) (l : List (Nat × α)) :
    sparseFind j (sparseErase k l) = sparseFind j l := by
  induction l with
  | nil => rfl
  | cons e l ih =>
    obtain ⟨i, y⟩ := e
    by_cases h1 : i = k
    · subst h1; simp [sparseErase, sparseFind, Ne.symm h, ih]
    · by_cases h2 : i = j
      · subst h2; simp [sparseErase, sparseFind, h1]
      · simp [sparseErase, sparseFind, h1, h2, ih]

theorem mem_sparseInsert {k : Nat} {x : α} {l : List (Nat × α)} {e : Nat × α}
    (h : e ∈ sparseInsert k x l) : e = (k, x) ∨ e ∈ l := by
  induction l with
  | nil => simpa [sparseInsert] using h
  | cons f l ih =>
    obtain ⟨i, y⟩ := f
    unfold sparseInsert at h
    split at h
    · simpa using h
    · split at h
      · rcases List.mem_cons.1 h with h | h
        · exact .inl h
        · exact .inr (List.mem_cons_of_mem _ h)
      · rcases List.mem_cons.1 h with h | h
        · exact .inr (by simp [h])
        · exact (ih h).imp id (List.mem_cons_of_mem _)

theorem mem_sparseErase {k : Nat} {l : List (Nat × α)} {e : Nat × α}
    (h : e ∈ sparseErase k l) : e ∈ l ∧ e.1 ≠ k := by
  induction l with
  | nil => simp [sparseErase] at h
  | cons f l ih =>
    obtain ⟨i, y⟩ := f
    unfold sparseErase at h
    split at h
    · exact ⟨List.mem_cons_of_mem _ (ih h).1, (ih h).2⟩
    · next hne =>
      rcases List.mem_cons.1 h with h | h
      · exact ⟨by simp [h], by simpa [h] using hne⟩
      · exact ⟨List.mem_cons_of_mem _ (ih h).1, (ih h).2⟩

/-- The rising order of keys. -/
abbrev Rising (l : List (Nat × α)) : Prop := l.Pairwise fun x y => x.1 < y.1

theorem sparseInsert_rising {k : Nat} {x : α} {l : List (Nat × α)} (h : Rising l) :
    Rising (sparseInsert k x l) := by
  induction l with
  | nil => simp [sparseInsert, Rising]
  | cons f l ih =>
    obtain ⟨i, y⟩ := f
    have h' := List.pairwise_cons.1 h
    unfold sparseInsert
    split
    · next hlt =>
      refine List.pairwise_cons.2 ⟨fun e he => ?_, h⟩
      rcases List.mem_cons.1 he with he | he
      · simpa [he] using hlt
      · exact Nat.lt_trans hlt (h'.1 e he)
    · split
      · next heq => subst heq; exact List.pairwise_cons.2 ⟨h'.1, h'.2⟩
      · next hge hne =>
        refine List.pairwise_cons.2 ⟨fun e he => ?_, ih h'.2⟩
        rcases mem_sparseInsert he with he | he
        · simp only [he]; omega
        · exact h'.1 e he

theorem sparseErase_rising {k : Nat} {l : List (Nat × α)} (h : Rising l) : Rising (sparseErase k l) := by
  induction l with
  | nil => exact h
  | cons f l ih =>
    obtain ⟨i, y⟩ := f
    have h' := List.pairwise_cons.1 h
    unfold sparseErase
    split
    · exact ih h'.2
    · exact List.pairwise_cons.2 ⟨fun e he => h'.1 e (mem_sparseErase he).1, ih h'.2⟩

/-- A value found is an entry. -/
theorem mem_of_sparseFind {k : Nat} {x : α} {l : List (Nat × α)} (h : sparseFind k l = some x) : (k, x) ∈ l := by
  induction l with
  | nil => simp at h
  | cons f l ih =>
    obtain ⟨i, y⟩ := f
    unfold sparseFind at h
    split at h
    · next heq => simp_all
    · exact List.mem_cons_of_mem _ (ih h)

/-- An entry of a rising list is found. -/
theorem sparseFind_of_mem {k : Nat} {x : α} {l : List (Nat × α)} (hl : Rising l) (h : (k, x) ∈ l) :
    sparseFind k l = some x := by
  induction l with
  | nil => simp at h
  | cons f l ih =>
    obtain ⟨i, y⟩ := f
    have h' := List.pairwise_cons.1 hl
    rcases List.mem_cons.1 h with h | h
    · simp_all [sparseFind]
    · have hlt : i < k := h'.1 _ h
      simp [sparseFind, Nat.ne_of_lt hlt, ih h'.2 h]

/-- Equal data: two rising lists with the same values are the same list. -/
theorem eq_of_sparseFind_eq {l m : List (Nat × α)} (hl : Rising l) (hm : Rising m)
    (h : ∀ k, sparseFind k l = sparseFind k m) : l = m := by
  refine List.Perm.eq_of_pairwise (le := fun a b : Nat × α => a.1 < b.1) ?_ hl hm ?_
  · intro a b _ _ h1 h2; omega
  · have nd : ∀ {l : List (Nat × α)}, Rising l → l.Nodup := fun h =>
      List.Pairwise.imp (fun hab => by rintro rfl; omega) h
    refine (List.perm_ext_iff_of_nodup (nd hl) (nd hm)).2 fun e => ?_
    obtain ⟨k, x⟩ := e
    exact ⟨fun he => mem_of_sparseFind (by rw [← h, sparseFind_of_mem hl he]),
      fun he => mem_of_sparseFind (by rw [h, sparseFind_of_mem hm he])⟩

end Sys2Proof.Laws
end

