-- ==== Sys2Proof/Laws/Memory.lean ====
section
/-! SUPPORT. What the memory operations can do: read after write, and the canonical form that every one of them keeps
(20_memory.md R70, R81). -/

namespace Sys2Proof.Laws

open Sys2Proof Sys2Proof.Machine

@[simp] theorem read_write_same (m : Memory) (a : Nat) (b : Byte) : (m.write a b).read a = b := by
  unfold Memory.read Memory.write
  split
  · next h => simp [h]
  · simp

theorem read_write_other {a a' : Nat} (h : a' ≠ a) (m : Memory) (b : Byte) :
    (m.write a b).read a' = m.read a' := by
  unfold Memory.read Memory.write
  split
  · rw [sparseFind_erase_other h]
  · rw [sparseFind_insert_other h]

theorem write_wf {m : Memory} (hm : m.wf) {a : Nat} (ha : a < 2 ^ 64) (b : Byte) : (m.write a b).wf := by
  unfold Memory.write
  split
  · exact ⟨sparseErase_rising hm.1, fun c hc => hm.2 c (mem_sparseErase hc).1⟩
  · next hb =>
    refine ⟨sparseInsert_rising hm.1, fun c hc => ?_⟩
    rcases mem_sparseInsert hc with rfl | hc
    · exact ⟨ha, hb⟩
    · exact hm.2 c hc

/-- Everything a block write does: byte k of `bs` stands at `p + k`, every other byte reads as before. -/
theorem read_writeBytes (bs : List Byte) (m : Memory) (p a : Nat) :
    (m.writeBytes p bs).read a =
      if p ≤ a ∧ a < p + bs.length then bs.getD (a - p) 0#8 else m.read a := by
  induction bs generalizing m p with
  | nil => simp only [Memory.writeBytes, List.length_nil]; rw [if_neg (by omega)]
  | cons b bs ih =>
    rw [Memory.writeBytes, ih]
    by_cases hap : a = p
    · subst hap
      rw [if_neg (by omega), if_pos (by simp)]
      simp
    · by_cases hin : p + 1 ≤ a ∧ a < p + 1 + bs.length
      · rw [if_pos hin, if_pos (by simp only [List.length_cons]; omega)]
        obtain ⟨d, rfl⟩ : ∃ d, a = p + 1 + d := ⟨a - (p + 1), by omega⟩
        rw [show p + 1 + d - (p + 1) = d by omega, show p + 1 + d - p = d + 1 by omega]
        simp
      · rw [if_neg hin, if_neg (by simp only [List.length_cons]; omega), read_write_other hap]

theorem writeBytes_wf {m : Memory} (hm : m.wf) (bs : List Byte) {p : Nat} (h : p + bs.length ≤ 2 ^ 64) :
    (m.writeBytes p bs).wf := by
  induction bs generalizing m p with
  | nil => exact hm
  | cons b bs ih =>
    simp only [List.length_cons] at h
    exact ih (write_wf hm (by omega) b) (by omega)

@[simp] theorem bytes_length (m : Memory) (p n : Nat) : (m.bytes p n).length = n := by simp [Memory.bytes]

@[simp] theorem bytes_zero (m : Memory) (p : Nat) : m.bytes p 0 = [] := rfl

theorem getElem_bytes (m : Memory) (p n i : Nat) (h : i < (m.bytes p n).length) :
    (m.bytes p n)[i] = m.read (p + i) := by simp [Memory.bytes]

/-- The bytes of a span depend on nothing but what its addresses read as. -/
theorem bytes_congr {m m' : Memory} {p n : Nat} (h : ∀ i < n, m.read (p + i) = m'.read (p + i)) :
    m.bytes p n = m'.bytes p n := by
  unfold Memory.bytes
  exact List.map_congr_left fun i hi => h i (List.mem_range.1 hi)

/-- Equal memories are equal data. -/
theorem memory_ext {m m' : Memory} (hm : m.wf) (hm' : m'.wf) (h : ∀ a, m.read a = m'.read a) : m = m' := by
  refine eq_of_sparseFind_eq hm.1 hm'.1 fun k => ?_
  have hk := h k
  unfold Memory.read at hk
  cases h1 : sparseFind k m with
  | none =>
    cases h2 : sparseFind k m' with
    | none => rfl
    | some y => exact absurd (by simpa [h1, h2] using hk.symm) (hm'.2 _ (mem_of_sparseFind h2)).2
  | some x =>
    cases h2 : sparseFind k m' with
    | none => exact absurd (by simpa [h1, h2] using hk) (hm.2 _ (mem_of_sparseFind h1)).2
    | some y => simpa [h1, h2] using hk

/-- No memory is left out (log 3): every assignment of bytes to the addresses of R70 is the reading of a canonical
memory. -/
theorem every_memory_represented (f : Nat → Byte) (n : Nat) (hn : n ≤ 2 ^ 64) :
    ∃ m : Memory, m.wf ∧ ∀ a < n, m.read a = f a := by
  induction n with
  | zero => exact ⟨[], ⟨List.Pairwise.nil, by simp⟩, by simp⟩
  | succ n ih =>
    obtain ⟨m, hm, hr⟩ := ih (by omega)
    refine ⟨m.write n (f n), write_wf hm (by omega) _, fun a ha => ?_⟩
    by_cases h : a = n
    · subst h; simp
    · rw [read_write_other h, hr a (by omega)]

/-- No `MemAdmit` is left out (log 2): every predicate on the addresses of R70 and the two kinds is the one of some
refused spans. -/
theorem every_memAdmit_represented (f : Nat → AccessKind → Bool) (c : Config) (n : Nat) :
    ∃ r : List RefusedSpan, ∀ a < n, ∀ k, admits { c with refused := r } a k = f a k := by
  have key : ∃ r : List RefusedSpan, (∀ a < n, ∀ k, admits { c with refused := r } a k = f a k) ∧
      ∀ a, n ≤ a → ∀ k, admits { c with refused := r } a k = true := by
    induction n with
    | zero => exact ⟨[], by simp, by simp [admits]⟩
    | succ n ih =>
      obtain ⟨r, hr, hout⟩ := ih
      let one (k : AccessKind) : List RefusedSpan := if f n k then [] else [⟨⟨n, 1⟩, k⟩]
      have hone : ∀ k a k', (one k).all (fun q => !(decide (q.kind = k') && inSpan q.span a)) =
          (f n k || !(decide (k = k') && decide (a = n))) := by
        intro k a k'
        cases hf : f n k
        · by_cases ha : a = n
          · subst ha; simp [one, hf, inSpan]
          · simp [one, hf, inSpan, ha]
        · simp [one, hf]
      have hadm : ∀ a k', admits { c with refused := one .read ++ one .write ++ r } a k' =
          (((f n .read || !(decide (AccessKind.read = k') && decide (a = n))) &&
            (f n .write || !(decide (AccessKind.write = k') && decide (a = n)))) &&
            admits { c with refused := r } a k') := by
        intro a k'
        unfold admits
        rw [List.all_append, List.all_append, hone, hone]
      refine ⟨one .read ++ one .write ++ r, fun a ha k => ?_, fun a ha k => ?_⟩
      · rw [hadm]
        by_cases h : a = n
        · subst h
          rw [hout a (Nat.le_refl a)]
          cases k <;> simp
        · rw [hr a (by omega)]
          simp [h]
      · rw [hadm, hout a (by omega)]
        have : a ≠ n := by omega
        simp [this]
  exact key.imp fun r h => h.1

end Sys2Proof.Laws
end

