-- ==== Sys2Proof/Laws/State.lean ====
section
/-! SUPPORT. One lemma per field per update of State, true by rfl, so that no proof unfolds a record update.
With a digest among the fields, a bare `rfl` over a state makes the kernel evaluate the digest: rewrite with these. -/

namespace Sys2Proof.Laws

open Sys2Proof Sys2Proof.Machine

/-! ### complete -/

@[simp] theorem complete_config (s : State) (c : Code) : (s.complete c).config = s.config := rfl
@[simp] theorem complete_cmd (s : State) (c : Code) : (s.complete c).cmd = s.cmd := rfl
@[simp] theorem complete_ptr (s : State) (c : Code) : (s.complete c).ptr = s.ptr := rfl
@[simp] theorem complete_len (s : State) (c : Code) : (s.complete c).len = s.len := rfl
@[simp] theorem complete_val (s : State) (c : Code) : (s.complete c).val = s.val := rfl
@[simp] theorem complete_result (s : State) (c : Code) : (s.complete c).result = s.result := rfl
@[simp] theorem complete_status (s : State) (c : Code) : (s.complete c).status = withCode s.status c := rfl
@[simp] theorem complete_ctx (s : State) (c : Code) : (s.complete c).ctx = s.ctx := rfl
@[simp] theorem complete_mem (s : State) (c : Code) : (s.complete c).mem = s.mem := rfl
@[simp] theorem complete_script (s : State) (c : Code) : (s.complete c).script = s.script := rfl
@[simp] theorem complete_position (s : State) (c : Code) : (s.complete c).position = s.position := rfl
@[simp] theorem complete_seen (s : State) (c : Code) : (s.complete c).seen = s.seen := rfl

/-! ### raiseFault -/

@[simp] theorem raiseFault_config (s : State) (c : Code) : (s.raiseFault c).config = s.config := rfl
@[simp] theorem raiseFault_cmd (s : State) (c : Code) : (s.raiseFault c).cmd = s.cmd := rfl
@[simp] theorem raiseFault_ptr (s : State) (c : Code) : (s.raiseFault c).ptr = s.ptr := rfl
@[simp] theorem raiseFault_len (s : State) (c : Code) : (s.raiseFault c).len = s.len := rfl
@[simp] theorem raiseFault_val (s : State) (c : Code) : (s.raiseFault c).val = s.val := rfl
@[simp] theorem raiseFault_result (s : State) (c : Code) : (s.raiseFault c).result = s.result := rfl
@[simp] theorem raiseFault_status (s : State) (c : Code) : (s.raiseFault c).status = withFault (withCode s.status c) := rfl
@[simp] theorem raiseFault_ctx (s : State) (c : Code) : (s.raiseFault c).ctx = s.ctx := rfl
@[simp] theorem raiseFault_mem (s : State) (c : Code) : (s.raiseFault c).mem = s.mem := rfl
@[simp] theorem raiseFault_script (s : State) (c : Code) : (s.raiseFault c).script = s.script := rfl
@[simp] theorem raiseFault_position (s : State) (c : Code) : (s.raiseFault c).position = s.position := rfl
@[simp] theorem raiseFault_seen (s : State) (c : Code) : (s.raiseFault c).seen = s.seen := rfl

/-! ### withResult -/

@[simp] theorem withResult_config {w : Nat} (s : State) (x : BitVec w) : (s.withResult x).config = s.config := rfl
@[simp] theorem withResult_cmd {w : Nat} (s : State) (x : BitVec w) : (s.withResult x).cmd = s.cmd := rfl
@[simp] theorem withResult_ptr {w : Nat} (s : State) (x : BitVec w) : (s.withResult x).ptr = s.ptr := rfl
@[simp] theorem withResult_len {w : Nat} (s : State) (x : BitVec w) : (s.withResult x).len = s.len := rfl
@[simp] theorem withResult_val {w : Nat} (s : State) (x : BitVec w) : (s.withResult x).val = s.val := rfl
@[simp] theorem withResult_result {w : Nat} (s : State) (x : BitVec w) : (s.withResult x).result = x.setWidth 64 := rfl
@[simp] theorem withResult_status {w : Nat} (s : State) (x : BitVec w) : (s.withResult x).status = s.status := rfl
@[simp] theorem withResult_ctx {w : Nat} (s : State) (x : BitVec w) : (s.withResult x).ctx = s.ctx := rfl
@[simp] theorem withResult_mem {w : Nat} (s : State) (x : BitVec w) : (s.withResult x).mem = s.mem := rfl
@[simp] theorem withResult_script {w : Nat} (s : State) (x : BitVec w) : (s.withResult x).script = s.script := rfl
@[simp] theorem withResult_position {w : Nat} (s : State) (x : BitVec w) : (s.withResult x).position = s.position := rfl
@[simp] theorem withResult_seen {w : Nat} (s : State) (x : BitVec w) : (s.withResult x).seen = s.seen := rfl

/-! ### withSlot -/

@[simp] theorem withSlot_config (s : State) (h : Nat) (slot : Slot) : (s.withSlot h slot).config = s.config := rfl
@[simp] theorem withSlot_cmd (s : State) (h : Nat) (slot : Slot) : (s.withSlot h slot).cmd = s.cmd := rfl
@[simp] theorem withSlot_ptr (s : State) (h : Nat) (slot : Slot) : (s.withSlot h slot).ptr = s.ptr := rfl
@[simp] theorem withSlot_len (s : State) (h : Nat) (slot : Slot) : (s.withSlot h slot).len = s.len := rfl
@[simp] theorem withSlot_val (s : State) (h : Nat) (slot : Slot) : (s.withSlot h slot).val = s.val := rfl
@[simp] theorem withSlot_result (s : State) (h : Nat) (slot : Slot) : (s.withSlot h slot).result = s.result := rfl
@[simp] theorem withSlot_status (s : State) (h : Nat) (slot : Slot) : (s.withSlot h slot).status = s.status := rfl
@[simp] theorem withSlot_ctx (s : State) (h : Nat) (slot : Slot) : (s.withSlot h slot).ctx = sparseInsert h slot s.ctx := rfl
@[simp] theorem withSlot_mem (s : State) (h : Nat) (slot : Slot) : (s.withSlot h slot).mem = s.mem := rfl
@[simp] theorem withSlot_script (s : State) (h : Nat) (slot : Slot) : (s.withSlot h slot).script = s.script := rfl
@[simp] theorem withSlot_position (s : State) (h : Nat) (slot : Slot) : (s.withSlot h slot).position = s.position := rfl
@[simp] theorem withSlot_seen (s : State) (h : Nat) (slot : Slot) : (s.withSlot h slot).seen = s.seen := rfl

/-! ### freeSlot -/

@[simp] theorem freeSlot_config (s : State) (h : Nat) : (s.freeSlot h).config = s.config := rfl
@[simp] theorem freeSlot_cmd (s : State) (h : Nat) : (s.freeSlot h).cmd = s.cmd := rfl
@[simp] theorem freeSlot_ptr (s : State) (h : Nat) : (s.freeSlot h).ptr = s.ptr := rfl
@[simp] theorem freeSlot_len (s : State) (h : Nat) : (s.freeSlot h).len = s.len := rfl
@[simp] theorem freeSlot_val (s : State) (h : Nat) : (s.freeSlot h).val = s.val := rfl
@[simp] theorem freeSlot_result (s : State) (h : Nat) : (s.freeSlot h).result = s.result := rfl
@[simp] theorem freeSlot_status (s : State) (h : Nat) : (s.freeSlot h).status = s.status := rfl
@[simp] theorem freeSlot_ctx (s : State) (h : Nat) : (s.freeSlot h).ctx = sparseErase h s.ctx := rfl
@[simp] theorem freeSlot_mem (s : State) (h : Nat) : (s.freeSlot h).mem = s.mem := rfl
@[simp] theorem freeSlot_script (s : State) (h : Nat) : (s.freeSlot h).script = s.script := rfl
@[simp] theorem freeSlot_position (s : State) (h : Nat) : (s.freeSlot h).position = s.position := rfl
@[simp] theorem freeSlot_seen (s : State) (h : Nat) : (s.freeSlot h).seen = s.seen := rfl

/-! ### hardwareReset -/

@[simp] theorem hardwareReset_config (s : State) : (s.hardwareReset).config = s.config := rfl
@[simp] theorem hardwareReset_cmd (s : State) : (s.hardwareReset).cmd = 0 := rfl
@[simp] theorem hardwareReset_ptr (s : State) : (s.hardwareReset).ptr = 0 := rfl
@[simp] theorem hardwareReset_len (s : State) : (s.hardwareReset).len = 0 := rfl
@[simp] theorem hardwareReset_val (s : State) : (s.hardwareReset).val = 0 := rfl
@[simp] theorem hardwareReset_result (s : State) : (s.hardwareReset).result = 0 := rfl
@[simp] theorem hardwareReset_status (s : State) : (s.hardwareReset).status = 0 := rfl
@[simp] theorem hardwareReset_ctx (s : State) : (s.hardwareReset).ctx = [] := rfl
@[simp] theorem hardwareReset_mem (s : State) : (s.hardwareReset).mem = s.mem := rfl
@[simp] theorem hardwareReset_script (s : State) : (s.hardwareReset).script = s.script := rfl
@[simp] theorem hardwareReset_position (s : State) : (s.hardwareReset).position = s.position := rfl
@[simp] theorem hardwareReset_seen (s : State) : (s.hardwareReset).seen = s.seen := rfl

/-! ### advance -/

@[simp] theorem advance_config (s : State) (rest : List HostAction) : (s.advance rest).config = s.config := rfl
@[simp] theorem advance_cmd (s : State) (rest : List HostAction) : (s.advance rest).cmd = s.cmd := rfl
@[simp] theorem advance_ptr (s : State) (rest : List HostAction) : (s.advance rest).ptr = s.ptr := rfl
@[simp] theorem advance_len (s : State) (rest : List HostAction) : (s.advance rest).len = s.len := rfl
@[simp] theorem advance_val (s : State) (rest : List HostAction) : (s.advance rest).val = s.val := rfl
@[simp] theorem advance_result (s : State) (rest : List HostAction) : (s.advance rest).result = s.result := rfl
@[simp] theorem advance_status (s : State) (rest : List HostAction) : (s.advance rest).status = s.status := rfl
@[simp] theorem advance_ctx (s : State) (rest : List HostAction) : (s.advance rest).ctx = s.ctx := rfl
@[simp] theorem advance_mem (s : State) (rest : List HostAction) : (s.advance rest).mem = s.mem := rfl
@[simp] theorem advance_script (s : State) (rest : List HostAction) : (s.advance rest).script = rest := rfl
@[simp] theorem advance_position (s : State) (rest : List HostAction) : (s.advance rest).position = s.position + 1 := rfl
@[simp] theorem advance_seen (s : State) (rest : List HostAction) : (s.advance rest).seen = s.seen := rfl

/-! ### The argument registers -/

@[simp] theorem writeArg_ptr (s : State) (v : Word64) : s.writeArg .ptr v = { s with ptr := v } := rfl
@[simp] theorem writeArg_len (s : State) (v : Word64) : s.writeArg .len v = { s with len := v } := rfl
@[simp] theorem writeArg_val (s : State) (v : Word64) : s.writeArg .val v = { s with val := v } := rfl

/-! ### The views of a state -/

theorem ptrOperand_eq (s : State) : s.ptrOperand = s.ptr.toNat := rfl
theorem lenOperand_eq (s : State) : s.lenOperand = s.len.toNat := rfl
theorem faulted_eq (s : State) : s.faulted = statusFault s.status := rfl

end Sys2Proof.Laws
end

