-- ==== Sys2Proof/Laws/Ops.lean ====
section
/-! SUPPORT. What the shared operations over slots, operands and spans can do, said once for each (60_exceptions.md
R281). -/

namespace Sys2Proof.Laws

open Sys2Proof Sys2Proof.Machine Sys2Proof.Safety

/-! ## Slots -/

theorem nCtx_pos (c : Config) : 1 ≤ c.nCtx := Nat.le_add_left 1 _

theorem nCtx_le (c : Config) : c.nCtx ≤ 255 := Nat.succ_le_of_lt c.nCtxPred.isLt

/-- R40: the slot numbers. -/
theorem hasSlot_iff (c : Config) (h : Nat) : hasSlot c h = true ↔ 1 ≤ h ∧ h ≤ c.nCtx := by
  have := nCtx_pos c
  simp only [hasSlot, Bool.and_eq_true, bne_iff_ne, Bool.or_eq_true, beq_iff_eq, decide_eq_true_eq]
  omega

/-- R203: the slot CREATE takes. -/
theorem leastFree_eq_some_iff (c : Config) (ctx : ContextFile) (h : Nat) :
    leastFree c ctx = some h ↔
      (1 ≤ h ∧ h ≤ c.nCtx) ∧ sparseFind h ctx = none ∧ ∀ k, 1 ≤ k → k < h → sparseFind k ctx ≠ none := by
  have hN := nCtx_le c
  unfold leastFree
  rw [List.find?_eq_some_iff_getElem]
  simp only [Bool.and_eq_true, hasSlot_iff, Option.isNone_iff_eq_none, List.getElem_range', List.length_range',
    Nat.one_mul, Bool.not_eq_true', Bool.and_eq_false_iff]
  constructor
  · rintro ⟨⟨hh, hf⟩, i, hi, rfl, hlt⟩
    refine ⟨hh, hf, fun k hk hkh => ?_⟩
    have := hlt (k - 1) (by omega)
    rw [show 1 + (k - 1) = k by omega] at this
    rcases this with this | this
    · exact absurd ((hasSlot_iff c k).2 ⟨by omega, by omega⟩) (by simp [this])
    · intro hn; simp [hn] at this
  · rintro ⟨hh, hf, hmin⟩
    refine ⟨⟨hh, hf⟩, h - 1, by omega, by omega, fun j hj => .inr ?_⟩
    have := hmin (1 + j) (by omega) (by omega)
    cases hx : sparseFind (1 + j) ctx with
    | none => exact absurd hx this
    | some _ => rfl

/-- R203: when no slot is FREE. -/
theorem leastFree_eq_none_iff (c : Config) (ctx : ContextFile) :
    leastFree c ctx = none ↔ ∀ h, 1 ≤ h → h ≤ c.nCtx → sparseFind h ctx ≠ none := by
  have hN := nCtx_le c
  unfold leastFree
  simp only [List.find?_eq_none, List.mem_range'_1, Bool.and_eq_true, hasSlot_iff, Option.isNone_iff_eq_none, not_and]
  constructor
  · intro h k h1 h2; exact h k ⟨h1, by omega⟩ ⟨h1, h2⟩
  · intro h k _ h2; exact h k h2.1 h2.2

/-- A slot is allocated: its number is one of the block's and the context file lists it. -/
theorem slotAt_eq_some_iff (s : State) (h : Nat) (slot : Slot) :
    s.slotAt h = some slot ↔ sparseFind h s.ctx = some slot ∧ 1 ≤ h ∧ h ≤ s.config.nCtx := by
  unfold State.slotAt
  rw [← hasSlot_iff]
  split
  · next h1 => simp [h1]
  · next h1 => simp [h1]; tauto

/-- The slots depend on the context file and the parameters only. -/
theorem slotAt_congr {s t : State} (hc : t.config = s.config) (hx : t.ctx = s.ctx) (h : Nat) :
    t.slotAt h = s.slotAt h := by unfold State.slotAt; rw [hc, hx]

@[simp] theorem slotAt_complete (s : State) (c : Code) (h : Nat) : (s.complete c).slotAt h = s.slotAt h := rfl
@[simp] theorem slotAt_raiseFault (s : State) (c : Code) (h : Nat) : (s.raiseFault c).slotAt h = s.slotAt h := rfl
@[simp] theorem slotAt_withResult {w : Nat} (s : State) (x : BitVec w) (h : Nat) :
    (s.withResult x).slotAt h = s.slotAt h := rfl
@[simp] theorem slotAt_advance (s : State) (rest : List HostAction) (h : Nat) :
    (s.advance rest).slotAt h = s.slotAt h := rfl
@[simp] theorem slotAt_hardwareReset (s : State) (h : Nat) : s.hardwareReset.slotAt h = none := rfl

theorem slotAt_withSlot_self {s : State} {h : Nat} (hh : hasSlot s.config h = true) (slot : Slot) :
    (s.withSlot h slot).slotAt h = some slot := by simp [State.slotAt, hh]

theorem slotAt_withSlot_other {s : State} {h k : Nat} (hk : k ≠ h) (slot : Slot) :
    (s.withSlot h slot).slotAt k = s.slotAt k := by
  unfold State.slotAt
  rw [withSlot_ctx, withSlot_config, sparseFind_insert_other hk]

@[simp] theorem slotAt_freeSlot_self (s : State) (h : Nat) : (s.freeSlot h).slotAt h = none := by simp [State.slotAt]

theorem slotAt_freeSlot_other {s : State} {h k : Nat} (hk : k ≠ h) : (s.freeSlot h).slotAt k = s.slotAt k := by
  unfold State.slotAt
  rw [freeSlot_ctx, freeSlot_config, sparseFind_erase_other hk]

/-! ## The handle's checks (R281, checks 3 to 5) -/

theorem slotOperand_of_free {s : State} {w : Width} {h : Nat} (hs : s.slotAt h = none) :
    s.slotOperand w h = .error .badHandle := by simp [State.slotOperand, hs]

theorem slotOperand_of_slot {s : State} {w : Width} {h : Nat} {slot : Slot} (hs : s.slotAt h = some slot) :
    s.slotOperand w h = if slotWidth slot = w then .ok slot else .error .widthMismatch := by
  simp [State.slotOperand, hs]

/-- Everything the checks of a handle can answer. -/
theorem slotOperand_cases (s : State) (w : Width) (h : Nat) :
    (s.slotAt h = none ∧ s.slotOperand w h = .error .badHandle) ∨
    (∃ slot, s.slotAt h = some slot ∧ slotWidth slot ≠ w ∧ s.slotOperand w h = .error .widthMismatch) ∨
    (∃ slot, s.slotAt h = some slot ∧ slotWidth slot = w ∧ s.slotOperand w h = .ok slot) := by
  cases hs : s.slotAt h with
  | none => exact .inl ⟨rfl, slotOperand_of_free hs⟩
  | some slot =>
    by_cases hw : slotWidth slot = w
    · exact .inr (.inr ⟨slot, rfl, hw, by rw [slotOperand_of_slot hs, if_pos hw]⟩)
    · exact .inr (.inl ⟨slot, rfl, hw, by rw [slotOperand_of_slot hs, if_neg hw]⟩)

/-- Everything the checks of UPDATE's and DIGEST's handle can answer. -/
theorem accOperand_cases {w : Nat} (s : State) (V : Variant w) (h : Nat) :
    (s.slotAt h = none ∧ s.accOperand V h = .error .badHandle) ∨
    (∃ slot, s.slotAt h = some slot ∧ slotWidth slot ≠ V.width ∧ s.accOperand V h = .error .widthMismatch) ∨
    (∃ slot, s.slotAt h = some slot ∧ slotWidth slot = V.width ∧ V.accOf slot = none ∧
      s.accOperand V h = .error .notInitialized) ∨
    (∃ slot c, s.slotAt h = some slot ∧ slotWidth slot = V.width ∧ V.accOf slot = some c ∧
      s.accOperand V h = .ok c) := by
  unfold State.accOperand
  rcases slotOperand_cases s V.width h with ⟨h1, h2⟩ | ⟨slot, h1, h2, h3⟩ | ⟨slot, h1, h2, h3⟩
  · exact .inl ⟨h1, by rw [h2]⟩
  · exact .inr (.inl ⟨slot, h1, h2, by rw [h3]⟩)
  · rw [h3]
    cases ha : V.accOf slot with
    | none => exact .inr (.inr (.inl ⟨slot, h1, h2, ha, by simp [ha]⟩))
    | some c => exact .inr (.inr (.inr ⟨slot, c, h1, h2, ha, by simp [ha]⟩))

theorem acc32Of_eq_some (slot : Slot) (c : Accumulator 32) : acc32Of slot = some c ↔ slot = .ready32 c := by
  cases slot <;> simp [acc32Of]

theorem acc64Of_eq_some (slot : Slot) (c : Accumulator 64) : acc64Of slot = some c ↔ slot = .ready64 c := by
  cases slot <;> simp [acc64Of]

theorem accOperand32_of_ready {s : State} {h : Nat} {c : Accumulator 32} (hs : s.slotAt h = some (.ready32 c)) :
    s.accOperand variant32 h = .ok c := by
  simp [State.accOperand, State.slotOperand, hs, slotWidth, variant32, acc32Of]

theorem accOperand64_of_ready {s : State} {h : Nat} {c : Accumulator 64} (hs : s.slotAt h = some (.ready64 c)) :
    s.accOperand variant64 h = .ok c := by
  simp [State.accOperand, State.slotOperand, hs, slotWidth, variant64, acc64Of]

theorem accOperand32_eq_ok {s : State} {h : Nat} {c : Accumulator 32} :
    s.accOperand variant32 h = .ok c ↔ s.slotAt h = some (.ready32 c) := by
  refine ⟨fun hok => ?_, accOperand32_of_ready⟩
  rcases accOperand_cases s variant32 h with ⟨_, h2⟩ | ⟨_, _, _, h2⟩ | ⟨_, _, _, _, h2⟩ | ⟨slot, c', h1, _, h3, h4⟩
  · simp [hok] at h2
  · simp [hok] at h2
  · simp [hok] at h2
  · rw [hok] at h4
    cases h4
    rw [h1, (acc32Of_eq_some slot c).1 h3]

theorem accOperand64_eq_ok {s : State} {h : Nat} {c : Accumulator 64} :
    s.accOperand variant64 h = .ok c ↔ s.slotAt h = some (.ready64 c) := by
  refine ⟨fun hok => ?_, accOperand64_of_ready⟩
  rcases accOperand_cases s variant64 h with ⟨_, h2⟩ | ⟨_, _, _, h2⟩ | ⟨_, _, _, _, h2⟩ | ⟨slot, c', h1, _, h3, h4⟩
  · simp [hok] at h2
  · simp [hok] at h2
  · simp [hok] at h2
  · rw [hok] at h4
    cases h4
    rw [h1, (acc64Of_eq_some slot c).1 h3]

/-! ## The span's checks (R281, checks 6 to 8) -/

theorem ptr_toNat_eq_zero (s : State) : s.ptr.toNat = 0 ↔ s.ptr = 0 := by
  constructor
  · intro h; exact BitVec.eq_of_toNat_eq (by simpa using h)
  · intro h; simp [h]

theorem spanFault_of_null {s : State} {k : AccessKind} {n : Nat} (hn : n ≠ 0) (hp : s.ptr = 0) :
    s.spanFault k n = some .nullPointer := by simp [State.spanFault, State.ptrOperand, hn, hp]

theorem spanFault_of_wrap {s : State} {k : AccessKind} {n : Nat} (hn : n ≠ 0) (hp : s.ptr ≠ 0)
    (hw : 2 ^ 64 < s.ptr.toNat + n) : s.spanFault k n = some .rangeWrap := by
  have := (ptr_toNat_eq_zero s).not.2 hp
  simp only [State.spanFault, State.ptrOperand]
  rw [if_neg (by tauto), if_pos ⟨hn, hw⟩]

theorem spanFault_of_refused {s : State} {k : AccessKind} {n i : Nat} (hp : s.ptr ≠ 0)
    (hw : s.ptr.toNat + n ≤ 2 ^ 64) (hi : i < n) (ha : admits s.config (s.ptr.toNat + i) k = false) :
    s.spanFault k n = some .memoryFault := by
  have := (ptr_toNat_eq_zero s).not.2 hp
  simp only [State.spanFault, State.ptrOperand]
  rw [if_neg (by tauto), if_neg (by omega), if_neg]
  simp only [List.all_eq_true, List.mem_range, not_forall, Bool.not_eq_true]
  exact ⟨i, hi, ha⟩

theorem spanFault_eq_none_iff (s : State) (k : AccessKind) (n : Nat) :
    s.spanFault k n = none ↔ SpanUsable s k n := by
  have hz := ptr_toNat_eq_zero s
  simp only [State.spanFault, State.ptrOperand]
  constructor
  · intro h
    split at h
    · cases h
    · next h1 =>
      split at h
      · cases h
      · next h2 =>
        split at h
        · next h3 =>
          exact ⟨fun hn hp => h1 ⟨hn, hz.2 hp⟩, fun hn => by omega, fun i hi =>
            List.all_eq_true.1 h3 i (List.mem_range.2 hi)⟩
        · cases h
  · rintro ⟨h1, h2, h3⟩
    rw [if_neg (fun h => h1 h.1 (hz.1 h.2)), if_neg (fun h => by have := h2 h.1; omega), if_pos]
    exact List.all_eq_true.2 fun i hi => h3 i (List.mem_range.1 hi)

theorem spanHasSideEffect_eq_false_iff (s : State) (n : Nat) :
    s.spanHasSideEffect n = false ↔ ∀ i < n, readHasSideEffect s.config (s.ptr.toNat + i) = false := by
  simp [State.spanHasSideEffect]

/-- A fault of a span's checks is a fault code. -/
theorem spanFault_isFault {s : State} {k : AccessKind} {n : Nat} {c : Code} (h : s.spanFault k n = some c) :
    codeIsFault c = true := by
  unfold State.spanFault at h
  split at h
  · cases h; rfl
  · split at h
    · cases h; rfl
    · split at h
      · cases h
      · cases h; rfl

/-- Everything a reading command can answer. -/
theorem readingSpan_cases (s : State) (n : Nat) (k : List Byte → State) :
    (∃ c, codeIsFault c = true ∧ s.spanFault .read n = some c ∧ s.readingSpan n k = .next (s.raiseFault c)) ∨
    (SpanUsable s .read n ∧ s.spanHasSideEffect n = true ∧ s.readingSpan n k = .refused .sideEffectingRead) ∨
    (SpanReadable s n ∧ s.readingSpan n k = .next (k (s.mem.bytes s.ptr.toNat n))) := by
  unfold State.readingSpan
  cases hf : s.spanFault .read n with
  | some c => exact .inl ⟨c, spanFault_isFault hf, rfl, rfl⟩
  | none =>
    have hu := (spanFault_eq_none_iff s .read n).1 hf
    cases he : s.spanHasSideEffect n with
    | true => exact .inr (.inl ⟨hu, rfl, rfl⟩)
    | false => exact .inr (.inr ⟨⟨hu, (spanHasSideEffect_eq_false_iff s n).1 he⟩, rfl⟩)

theorem readingSpan_of_readable {s : State} {n : Nat} (h : SpanReadable s n) (k : List Byte → State) :
    s.readingSpan n k = .next (k (s.mem.bytes s.ptr.toNat n)) := by
  unfold State.readingSpan
  rw [(spanFault_eq_none_iff s .read n).2 h.toSpanUsable, (spanHasSideEffect_eq_false_iff s n).2 h.plain]
  rfl

theorem readingSpan_of_fault {s : State} {n : Nat} {c : Code} (h : s.spanFault .read n = some c)
    (k : List Byte → State) : s.readingSpan n k = .next (s.raiseFault c) := by unfold State.readingSpan; rw [h]

/-- Everything a writing command can answer. -/
theorem writingSpan_cases (s : State) (n : Nat) (t : State) :
    (∃ c, codeIsFault c = true ∧ s.spanFault .write n = some c ∧ s.writingSpan n t = .next (s.raiseFault c)) ∨
    (SpanUsable s .write n ∧ s.writingSpan n t = .next t) := by
  unfold State.writingSpan
  cases hf : s.spanFault .write n with
  | some c => exact .inl ⟨c, spanFault_isFault hf, rfl, rfl⟩
  | none => exact .inr ⟨(spanFault_eq_none_iff s .write n).1 hf, rfl⟩

theorem writingSpan_of_usable {s : State} {n : Nat} (h : SpanUsable s .write n) (t : State) :
    s.writingSpan n t = .next t := by unfold State.writingSpan; rw [(spanFault_eq_none_iff s .write n).2 h]

theorem writingSpan_of_fault {s : State} {n : Nat} {c : Code} (h : s.spanFault .write n = some c) (t : State) :
    s.writingSpan n t = .next (s.raiseFault c) := by unfold State.writingSpan; rw [h]

end Sys2Proof.Laws
end

