-- ==== Sys2Proof/Laws/Commands.lean ====
section
/-! SUPPORT. Everything each command can answer, said once for each family (41_oneshot.md, 42_streaming.md,
43_canonical.md). -/

namespace Sys2Proof.Laws

open Sys2Proof Sys2Proof.Machine Sys2Proof.Safety

theorem hashCommand_cases {w : Nat} (V : Variant w) (s : State) :
    (∃ c, codeIsFault c = true ∧ hashCommand V s = .next (s.raiseFault c)) ∨
    (s.spanHasSideEffect s.len.toNat = true ∧ hashCommand V s = .refused .sideEffectingRead) ∨
    (SpanReadable s s.len.toNat ∧
      hashCommand V s = .next ((s.withResult (hashBytes V s.input (s.valOperand w))).complete .ok)) := by
  rcases readingSpan_cases s s.len.toNat fun B => (s.withResult (hashBytes V B (s.valOperand w))).complete .ok with
    ⟨c, h1, _, h3⟩ | ⟨_, h2, h3⟩ | ⟨h1, h2⟩
  · exact .inl ⟨c, h1, h3⟩
  · exact .inr (.inl ⟨h2, h3⟩)
  · exact .inr (.inr ⟨h1, h2⟩)

theorem createCommand_cases (w : Width) (s : State) :
    (leastFree s.config s.ctx = none ∧
      createCommand w s = .next ((s.withResult (0#64)).complete .noContext)) ∨
    (∃ h, leastFree s.config s.ctx = some h ∧
      createCommand w s = .next (((s.withSlot h (.uninit w)).withResult (BitVec.ofNat 64 h)).complete .ok)) := by
  unfold createCommand
  cases hl : leastFree s.config s.ctx with
  | none => exact .inl ⟨rfl, rfl⟩
  | some h => exact .inr ⟨h, rfl, rfl⟩

theorem resetCommand_cases {w : Nat} (V : Variant w) (h : Nat) (s : State) :
    (∃ c, codeIsFault c = true ∧ resetCommand V h s = .next (s.raiseFault c)) ∨
    (∃ slot, s.slotAt h = some slot ∧ slotWidth slot = V.width ∧
      resetCommand V h s = .next ((s.withSlot h (V.ready (freshAcc V (s.valOperand w)))).complete .ok)) := by
  unfold resetCommand
  rcases slotOperand_cases s V.width h with ⟨_, h2⟩ | ⟨slot, _, _, h3⟩ | ⟨slot, h1, h2, h3⟩
  · exact .inl ⟨.badHandle, rfl, by rw [h2]⟩
  · exact .inl ⟨.widthMismatch, rfl, by rw [h3]⟩
  · exact .inr ⟨slot, h1, h2, by rw [h3]⟩

theorem updateCommand_cases {w : Nat} (V : Variant w) (h : Nat) (s : State) :
    (∃ c, codeIsFault c = true ∧ updateCommand V h s = .next (s.raiseFault c)) ∨
    (s.spanHasSideEffect s.len.toNat = true ∧ updateCommand V h s = .refused .sideEffectingRead) ∨
    (∃ acc, s.accOperand V h = .ok acc ∧ SpanReadable s s.len.toNat ∧
      updateCommand V h s = .next ((s.withSlot h (V.ready (update V acc s.input))).complete .ok)) := by
  unfold updateCommand
  rcases accOperand_cases s V h with ⟨_, h2⟩ | ⟨_, _, _, h2⟩ | ⟨_, _, _, _, h2⟩ | ⟨_, acc, _, _, _, h2⟩
  · exact .inl ⟨.badHandle, rfl, by rw [h2]⟩
  · exact .inl ⟨.widthMismatch, rfl, by rw [h2]⟩
  · exact .inl ⟨.notInitialized, rfl, by rw [h2]⟩
  · rw [h2]
    rcases readingSpan_cases s s.len.toNat fun B => (s.withSlot h (V.ready (update V acc B))).complete .ok with
      ⟨c, h1, _, h3⟩ | ⟨_, h2, h3⟩ | ⟨h1, h2⟩
    · exact .inl ⟨c, h1, h3⟩
    · exact .inr (.inl ⟨h2, h3⟩)
    · exact .inr (.inr ⟨acc, rfl, h1, h2⟩)

theorem digestCommand_cases {w : Nat} (V : Variant w) (h : Nat) (s : State) :
    (∃ c, codeIsFault c = true ∧ digestCommand V h s = .next (s.raiseFault c)) ∨
    (∃ acc, s.accOperand V h = .ok acc ∧
      digestCommand V h s = .next ((s.withResult (digest V acc)).complete .ok)) := by
  unfold digestCommand
  rcases accOperand_cases s V h with ⟨_, h2⟩ | ⟨_, _, _, h2⟩ | ⟨_, _, _, _, h2⟩ | ⟨_, acc, _, _, _, h2⟩
  · exact .inl ⟨.badHandle, rfl, by rw [h2]⟩
  · exact .inl ⟨.widthMismatch, rfl, by rw [h2]⟩
  · exact .inl ⟨.notInitialized, rfl, by rw [h2]⟩
  · exact .inr ⟨acc, h2, by rw [h2]⟩

theorem freeCommand_cases (w : Width) (h : Nat) (s : State) :
    (h = 0 ∧ freeCommand w h s = .next (s.complete .ok)) ∨
    (∃ c, codeIsFault c = true ∧ freeCommand w h s = .next (s.raiseFault c)) ∨
    (h ≠ 0 ∧ ∃ slot, s.slotAt h = some slot ∧ slotWidth slot = w ∧
      freeCommand w h s = .next ((s.freeSlot h).complete .ok)) := by
  unfold freeCommand
  by_cases hh : h = 0
  · exact .inl ⟨hh, if_pos hh⟩
  · rw [if_neg hh]
    rcases slotOperand_cases s w h with ⟨_, h2⟩ | ⟨slot, _, _, h3⟩ | ⟨slot, h1, h2, h3⟩
    · exact .inr (.inl ⟨.badHandle, rfl, by rw [h2]⟩)
    · exact .inr (.inl ⟨.widthMismatch, rfl, by rw [h3]⟩)
    · exact .inr (.inr ⟨hh, slot, h1, h2, by rw [h3]⟩)

theorem tocanonCommand_cases (w : Nat) (s : State) :
    (∃ c, codeIsFault c = true ∧ tocanonCommand w s = .next (s.raiseFault c)) ∨
    (SpanUsable s .write (canonSize w) ∧ tocanonCommand w s =
      .next ({ s with mem := s.mem.writeBytes s.ptr.toNat (canon w (s.valOperand w)) }.complete .ok)) := by
  rcases writingSpan_cases s (canonSize w)
    ({ s with mem := s.mem.writeBytes s.ptr.toNat (canon w (s.valOperand w)) }.complete .ok) with
    ⟨c, h1, _, h3⟩ | ⟨h1, h2⟩
  · exact .inl ⟨c, h1, h3⟩
  · exact .inr ⟨h1, h2⟩

theorem fromcanonCommand_cases (w : Nat) (s : State) :
    (∃ c, codeIsFault c = true ∧ fromcanonCommand w s = .next (s.raiseFault c)) ∨
    (s.spanHasSideEffect (canonSize w) = true ∧ fromcanonCommand w s = .refused .sideEffectingRead) ∨
    (SpanReadable s (canonSize w) ∧ fromcanonCommand w s =
      .next ((s.withResult (uncanon w (s.mem.bytes s.ptr.toNat (canonSize w)))).complete .ok)) := by
  rcases readingSpan_cases s (canonSize w) fun C => (s.withResult (uncanon w C)).complete .ok with
    ⟨c, h1, _, h3⟩ | ⟨_, h2, h3⟩ | ⟨h1, h2⟩
  · exact .inl ⟨c, h1, h3⟩
  · exact .inr (.inl ⟨h2, h3⟩)
  · exact .inr (.inr ⟨h1, h2⟩)

@[simp] theorem canon_length (w : Nat) (x : BitVec w) : (canon w x).length = canonSize w := by simp [canon]

/-! ## The arms of exec, each over its family's command -/

theorem exec_hash32 (s : State) : exec .hash32 s = hashCommand variant32 s := rfl
theorem exec_hash64 (s : State) : exec .hash64 s = hashCommand variant64 s := rfl
theorem exec_create32 (s : State) : exec .create32 s = createCommand .w32 s := rfl
theorem exec_create64 (s : State) : exec .create64 s = createCommand .w64 s := rfl
theorem exec_reset32 (h : Nat) (s : State) : exec (.reset32 h) s = resetCommand variant32 h s := rfl
theorem exec_reset64 (h : Nat) (s : State) : exec (.reset64 h) s = resetCommand variant64 h s := rfl
theorem exec_update32 (h : Nat) (s : State) : exec (.update32 h) s = updateCommand variant32 h s := rfl
theorem exec_update64 (h : Nat) (s : State) : exec (.update64 h) s = updateCommand variant64 h s := rfl
theorem exec_digest32 (h : Nat) (s : State) : exec (.digest32 h) s = digestCommand variant32 h s := rfl
theorem exec_digest64 (h : Nat) (s : State) : exec (.digest64 h) s = digestCommand variant64 h s := rfl
theorem exec_free32 (h : Nat) (s : State) : exec (.free32 h) s = freeCommand .w32 h s := rfl
theorem exec_free64 (h : Nat) (s : State) : exec (.free64 h) s = freeCommand .w64 h s := rfl
theorem exec_tocanon32 (s : State) : exec .tocanon32 s = tocanonCommand 32 s := rfl
theorem exec_tocanon64 (s : State) : exec .tocanon64 s = tocanonCommand 64 s := rfl
theorem exec_fromcanon32 (s : State) : exec .fromcanon32 s = fromcanonCommand 32 s := rfl
theorem exec_fromcanon64 (s : State) : exec .fromcanon64 s = fromcanonCommand 64 s := rfl

/-! ## The host's actions -/

theorem step_idle {s : State} (h : s.script = []) : step s = .next s := by
  unfold step takeAction; rw [h]

theorem step_action {s : State} {act : HostAction} {rest : List HostAction} (h : s.script = act :: rest) :
    step s = hostAct act (s.advance rest) := by
  unfold step takeAction; rw [h]

end Sys2Proof.Laws
end

