-- ==== Sys2Proof/Laws/Decode.lean ====
section
/-! SUPPORT. The fields of a command word the encoder writes (30_encoding.md R100). -/

namespace Sys2Proof.Laws

open Sys2Proof

@[simp] theorem fieldRsv1_commandWord (h : BitVec 8) (w : BitVec 1) (op : BitVec 4) :
    fieldRsv1 (commandWord h w op) = 0 := by
  apply BitVec.eq_of_getLsbD_eq; intro i hi
  interval_cases i <;> simp [fieldRsv1, commandWord]

@[simp] theorem fieldH_commandWord (h : BitVec 8) (w : BitVec 1) (op : BitVec 4) :
    fieldH (commandWord h w op) = h := by
  apply BitVec.eq_of_getLsbD_eq; intro i hi
  interval_cases i <;> simp [fieldH, commandWord]

@[simp] theorem fieldRsv0_commandWord (h : BitVec 8) (w : BitVec 1) (op : BitVec 4) :
    fieldRsv0 (commandWord h w op) = 0 := by
  apply BitVec.eq_of_getLsbD_eq; intro i hi
  interval_cases i <;> simp [fieldRsv0, commandWord]

@[simp] theorem fieldW_commandWord (h : BitVec 8) (w : BitVec 1) (op : BitVec 4) :
    fieldW (commandWord h w op) = w := by
  apply BitVec.eq_of_getLsbD_eq; intro i hi
  interval_cases i; simp [fieldW, commandWord]

@[simp] theorem fieldOp_commandWord (h : BitVec 8) (w : BitVec 1) (op : BitVec 4) :
    fieldOp (commandWord h w op) = op := by
  apply BitVec.eq_of_getLsbD_eq; intro i hi
  interval_cases i <;> simp [fieldOp, commandWord]

end Sys2Proof.Laws
end

