-- ==== Sys2Proof/Laws/Exec.lean ====
section
/-! SUPPORT. Everything `exec` and a write of CMD can answer, said once (60_exceptions.md R270): a fault, a stop at a read
with side effects, or one effect and a completion code. A proof over all commands takes the cases of `exec_next` and
rewrites with the lemmas of Sys2Proof/Laws/State.lean. The value an effect stores is a variable with an equation beside
it: with the digest itself in its place, a bare `rfl` over the state makes the kernel evaluate the digest. -/

namespace Sys2Proof.Laws

open Sys2Proof Sys2Proof.Machine Sys2Proof.Safety

/-- What a command that completes has done to the state, before its code is written, and the code. -/
inductive Effect (i : Instr) (s : State) : State → Code → Prop
  | hash32 (x : BitVec 32) : i = .hash32 → SpanReadable s s.len.toNat →
      x = hashBytes variant32 s.input (s.valOperand 32) → Effect i s (s.withResult x) .ok
  | hash64 (x : BitVec 64) : i = .hash64 → SpanReadable s s.len.toNat →
      x = hashBytes variant64 s.input (s.valOperand 64) → Effect i s (s.withResult x) .ok
  | createNone : isCreate i = true → leastFree s.config s.ctx = none → Effect i s (s.withResult (0#64)) .noContext
  | createSome (h : Nat) : isCreate i = true → leastFree s.config s.ctx = some h →
      Effect i s ((s.withSlot h (.uninit i.width)).withResult (BitVec.ofNat 64 h)) .ok
  | reset32 (h : Nat) (slot : Slot) (x : Accumulator 32) :
      i = .reset32 h → s.slotAt h = some slot → slotWidth slot = .w32 →
      x = freshAcc variant32 (s.valOperand 32) → Effect i s (s.withSlot h (.ready32 x)) .ok
  | reset64 (h : Nat) (slot : Slot) (x : Accumulator 64) :
      i = .reset64 h → s.slotAt h = some slot → slotWidth slot = .w64 →
      x = freshAcc variant64 (s.valOperand 64) → Effect i s (s.withSlot h (.ready64 x)) .ok
  | update32 (h : Nat) (c x : Accumulator 32) :
      i = .update32 h → s.slotAt h = some (.ready32 c) → SpanReadable s s.len.toNat →
      x = update variant32 c s.input → Effect i s (s.withSlot h (.ready32 x)) .ok
  | update64 (h : Nat) (c x : Accumulator 64) :
      i = .update64 h → s.slotAt h = some (.ready64 c) → SpanReadable s s.len.toNat →
      x = update variant64 c s.input → Effect i s (s.withSlot h (.ready64 x)) .ok
  | digest32 (h : Nat) (c : Accumulator 32) (x : BitVec 32) :
      i = .digest32 h → s.slotAt h = some (.ready32 c) →
      x = digest variant32 c → Effect i s (s.withResult x) .ok
  | digest64 (h : Nat) (c : Accumulator 64) (x : BitVec 64) :
      i = .digest64 h → s.slotAt h = some (.ready64 c) →
      x = digest variant64 c → Effect i s (s.withResult x) .ok
  | freeNull : isFree i = true → i.handle? = some 0 → Effect i s s .ok
  | free (h : Nat) (slot : Slot) : isFree i = true → i.handle? = some h → h ≠ 0 → s.slotAt h = some slot →
      slotWidth slot = i.width → Effect i s (s.freeSlot h) .ok
  | tocanon32 (x : List Byte) : i = .tocanon32 → SpanUsable s .write 4 → x = canon 32 (s.valOperand 32) →
      Effect i s { s with mem := s.mem.writeBytes s.ptr.toNat x } .ok
  | tocanon64 (x : List Byte) : i = .tocanon64 → SpanUsable s .write 8 → x = canon 64 (s.valOperand 64) →
      Effect i s { s with mem := s.mem.writeBytes s.ptr.toNat x } .ok
  | fromcanon32 (x : BitVec 32) : i = .fromcanon32 → SpanReadable s 4 →
      x = uncanon 32 (s.mem.bytes s.ptr.toNat 4) → Effect i s (s.withResult x) .ok
  | fromcanon64 (x : BitVec 64) : i = .fromcanon64 → SpanReadable s 8 →
      x = uncanon 64 (s.mem.bytes s.ptr.toNat 8) → Effect i s (s.withResult x) .ok

/-- Everything a command can answer. -/
theorem exec_cases (i : Instr) (s : State) :
    (∃ c, codeIsFault c = true ∧ exec i s = .next (s.raiseFault c)) ∨
    (∃ n, byteSpan i s = some (.read, n) ∧ SpanUsable s .read n ∧ s.spanHasSideEffect n = true ∧
      exec i s = .refused .sideEffectingRead) ∨
    (∃ t c, Effect i s t c ∧ exec i s = .next (t.complete c)) := by
  cases i with
  | hash32 =>
    rw [exec_hash32]
    unfold hashCommand
    rcases readingSpan_cases s s.len.toNat fun B =>
          (s.withResult (hashBytes variant32 B (s.valOperand 32))).complete .ok with
      ⟨c, h1, _, h3⟩ | ⟨h0, h2, h3⟩ | ⟨h1, h2⟩
    · exact .inl ⟨c, h1, h3⟩
    · exact .inr (.inl ⟨_, rfl, h0, h2, h3⟩)
    · exact .inr (.inr ⟨_, _, .hash32 _ rfl h1 rfl, h2⟩)
  | hash64 =>
    rw [exec_hash64]
    unfold hashCommand
    rcases readingSpan_cases s s.len.toNat fun B =>
          (s.withResult (hashBytes variant64 B (s.valOperand 64))).complete .ok with
      ⟨c, h1, _, h3⟩ | ⟨h0, h2, h3⟩ | ⟨h1, h2⟩
    · exact .inl ⟨c, h1, h3⟩
    · exact .inr (.inl ⟨_, rfl, h0, h2, h3⟩)
    · exact .inr (.inr ⟨_, _, .hash64 _ rfl h1 rfl, h2⟩)
  | create32 =>
    rw [exec_create32]
    rcases createCommand_cases .w32 s with ⟨h1, h2⟩ | ⟨h, h1, h2⟩
    · exact .inr (.inr ⟨_, _, .createNone rfl h1, h2⟩)
    · exact .inr (.inr ⟨_, _, .createSome h rfl h1, h2⟩)
  | create64 =>
    rw [exec_create64]
    rcases createCommand_cases .w64 s with ⟨h1, h2⟩ | ⟨h, h1, h2⟩
    · exact .inr (.inr ⟨_, _, .createNone rfl h1, h2⟩)
    · exact .inr (.inr ⟨_, _, .createSome h rfl h1, h2⟩)
  | reset32 h =>
    rw [exec_reset32]
    rcases resetCommand_cases variant32 h s with ⟨c, h1, h2⟩ | ⟨slot, h1, h2, h3⟩
    · exact .inl ⟨c, h1, h2⟩
    · exact .inr (.inr ⟨_, _, .reset32 h slot _ rfl h1 h2 rfl, h3⟩)
  | reset64 h =>
    rw [exec_reset64]
    rcases resetCommand_cases variant64 h s with ⟨c, h1, h2⟩ | ⟨slot, h1, h2, h3⟩
    · exact .inl ⟨c, h1, h2⟩
    · exact .inr (.inr ⟨_, _, .reset64 h slot _ rfl h1 h2 rfl, h3⟩)
  | update32 h =>
    rw [exec_update32]
    unfold updateCommand
    rcases accOperand_cases s variant32 h with ⟨_, h2⟩ | ⟨_, _, _, h2⟩ | ⟨_, _, _, _, h2⟩ | ⟨_, acc, _, _, _, h2⟩
    · exact .inl ⟨.badHandle, rfl, by rw [h2]⟩
    · exact .inl ⟨.widthMismatch, rfl, by rw [h2]⟩
    · exact .inl ⟨.notInitialized, rfl, by rw [h2]⟩
    · rw [h2]
      rcases readingSpan_cases s s.len.toNat fun B =>
          (s.withSlot h (variant32.ready (update variant32 acc B))).complete .ok with
        ⟨c, h1, _, h3⟩ | ⟨h0, h2', h3⟩ | ⟨h1, h3⟩
      · exact .inl ⟨c, h1, h3⟩
      · exact .inr (.inl ⟨_, rfl, h0, h2', h3⟩)
      · exact .inr (.inr ⟨_, _, .update32 h acc _ rfl (accOperand32_eq_ok.1 h2) h1 rfl, h3⟩)
  | update64 h =>
    rw [exec_update64]
    unfold updateCommand
    rcases accOperand_cases s variant64 h with ⟨_, h2⟩ | ⟨_, _, _, h2⟩ | ⟨_, _, _, _, h2⟩ | ⟨_, acc, _, _, _, h2⟩
    · exact .inl ⟨.badHandle, rfl, by rw [h2]⟩
    · exact .inl ⟨.widthMismatch, rfl, by rw [h2]⟩
    · exact .inl ⟨.notInitialized, rfl, by rw [h2]⟩
    · rw [h2]
      rcases readingSpan_cases s s.len.toNat fun B =>
          (s.withSlot h (variant64.ready (update variant64 acc B))).complete .ok with
        ⟨c, h1, _, h3⟩ | ⟨h0, h2', h3⟩ | ⟨h1, h3⟩
      · exact .inl ⟨c, h1, h3⟩
      · exact .inr (.inl ⟨_, rfl, h0, h2', h3⟩)
      · exact .inr (.inr ⟨_, _, .update64 h acc _ rfl (accOperand64_eq_ok.1 h2) h1 rfl, h3⟩)
  | digest32 h =>
    rw [exec_digest32]
    rcases digestCommand_cases variant32 h s with ⟨c, h1, h2⟩ | ⟨acc, h1, h2⟩
    · exact .inl ⟨c, h1, h2⟩
    · exact .inr (.inr ⟨_, _, .digest32 h acc _ rfl (accOperand32_eq_ok.1 h1) rfl, h2⟩)
  | digest64 h =>
    rw [exec_digest64]
    rcases digestCommand_cases variant64 h s with ⟨c, h1, h2⟩ | ⟨acc, h1, h2⟩
    · exact .inl ⟨c, h1, h2⟩
    · exact .inr (.inr ⟨_, _, .digest64 h acc _ rfl (accOperand64_eq_ok.1 h1) rfl, h2⟩)
  | free32 h =>
    rw [exec_free32]
    rcases freeCommand_cases .w32 h s with ⟨rfl, h2⟩ | ⟨c, h1, h2⟩ | ⟨h0, slot, h1, h2, h3⟩
    · exact .inr (.inr ⟨_, _, .freeNull rfl rfl, h2⟩)
    · exact .inl ⟨c, h1, h2⟩
    · exact .inr (.inr ⟨_, _, .free h slot rfl rfl h0 h1 h2, h3⟩)
  | free64 h =>
    rw [exec_free64]
    rcases freeCommand_cases .w64 h s with ⟨rfl, h2⟩ | ⟨c, h1, h2⟩ | ⟨h0, slot, h1, h2, h3⟩
    · exact .inr (.inr ⟨_, _, .freeNull rfl rfl, h2⟩)
    · exact .inl ⟨c, h1, h2⟩
    · exact .inr (.inr ⟨_, _, .free h slot rfl rfl h0 h1 h2, h3⟩)
  | tocanon32 =>
    rw [exec_tocanon32]
    rcases tocanonCommand_cases 32 s with ⟨c, h1, h2⟩ | ⟨h1, h2⟩
    · exact .inl ⟨c, h1, h2⟩
    · exact .inr (.inr ⟨_, _, .tocanon32 _ rfl h1 rfl, h2⟩)
  | tocanon64 =>
    rw [exec_tocanon64]
    rcases tocanonCommand_cases 64 s with ⟨c, h1, h2⟩ | ⟨h1, h2⟩
    · exact .inl ⟨c, h1, h2⟩
    · exact .inr (.inr ⟨_, _, .tocanon64 _ rfl h1 rfl, h2⟩)
  | fromcanon32 =>
    rw [exec_fromcanon32]
    unfold fromcanonCommand
    rcases readingSpan_cases s (canonSize 32) fun C => (s.withResult (uncanon 32 C)).complete .ok with
      ⟨c, h1, _, h3⟩ | ⟨h0, h2, h3⟩ | ⟨h1, h2⟩
    · exact .inl ⟨c, h1, h3⟩
    · exact .inr (.inl ⟨_, rfl, h0, h2, h3⟩)
    · exact .inr (.inr ⟨_, _, .fromcanon32 _ rfl h1 rfl, h2⟩)
  | fromcanon64 =>
    rw [exec_fromcanon64]
    unfold fromcanonCommand
    rcases readingSpan_cases s (canonSize 64) fun C => (s.withResult (uncanon 64 C)).complete .ok with
      ⟨c, h1, _, h3⟩ | ⟨h0, h2, h3⟩ | ⟨h1, h2⟩
    · exact .inl ⟨c, h1, h3⟩
    · exact .inr (.inl ⟨_, rfl, h0, h2, h3⟩)
    · exact .inr (.inr ⟨_, _, .fromcanon64 _ rfl h1 rfl, h2⟩)

/-- Everything the next state of a command can be. -/
theorem exec_next {i : Instr} {s t : State} (h : exec i s = .next t) :
    (∃ c, codeIsFault c = true ∧ t = s.raiseFault c) ∨ (∃ u c, Effect i s u c ∧ t = u.complete c) := by
  rcases exec_cases i s with ⟨c, h1, h2⟩ | ⟨_, _, _, _, h2⟩ | ⟨u, c, h1, h2⟩
  · rw [h] at h2; cases h2; exact .inl ⟨c, h1, rfl⟩
  · rw [h] at h2; cases h2
  · rw [h] at h2; cases h2; exact .inr ⟨u, c, h1, rfl⟩

/-! ## The states commands leave, as record updates -/

theorem withResult_complete_eq {w : Nat} (s : State) (x : BitVec w) (c : Code) :
    (s.withResult x).complete c = { s with result := x.setWidth 64, status := withCode s.status c } := rfl

theorem withSlot_complete_eq (s : State) (h : Nat) (x : Slot) (c : Code) :
    (s.withSlot h x).complete c =
      { s with ctx := ((s.withSlot h x).complete c).ctx, status := withCode s.status c } := rfl

theorem freeSlot_complete_eq (s : State) (h : Nat) (c : Code) :
    (s.freeSlot h).complete c =
      { s with ctx := ((s.freeSlot h).complete c).ctx, status := withCode s.status c } := rfl

/-! ## A write of CMD -/

/-- R31, R284: an unfaulted block runs the word it is given. -/
theorem step_writeCmd {s : State} {word : Word32} {rest : List HostAction} (hf : s.faulted = false)
    (h : s.script = .writeCmd word :: rest) :
    step s = runWord word { s with cmd := word, script := rest, position := s.position + 1 } := by
  rw [step_action h]
  show (if (s.advance rest).faulted then _ else _) = _
  rw [show (s.advance rest).faulted = false from hf]
  rfl

/-- R284: a faulted block takes no word. -/
theorem step_writeCmd_faulted {s : State} {word : Word32} {rest : List HostAction} (hf : s.faulted = true)
    (h : s.script = .writeCmd word :: rest) : step s = .next (s.advance rest) := by
  rw [step_action h]
  show (if (s.advance rest).faulted then _ else _) = _
  rw [show (s.advance rest).faulted = true from hf]
  rfl

end Sys2Proof.Laws
end

