-- ==== Sys2Proof/Laws/Mixing.lean ====
section
/-! SUPPORT. Bits and bytes of assembled words (40_mixing_primitives.md R150, R152; 43_canonical.md R250). -/

namespace Sys2Proof.Laws

open Sys2Proof Sys2Proof.Machine

/-- A bit of an OR over a list. -/
theorem getLsbD_orAll {w : Nat} (l : List (BitVec w)) (i : Nat) :
    (orAll l).getLsbD i = l.any fun x => x.getLsbD i := by
  induction l with
  | nil => simp [orAll]
  | cons x xs ih => simp [orAll, ih]

/-- Inside a sequence `byteAt` is its byte. -/
theorem byteAt_eq_getElem (S : List Byte) (i : Nat) (h : i < S.length) : byteAt S i = S[i] := by
  simp [byteAt, List.getD, h]

/-- R16: byte k of a span read from memory. -/
theorem byteAt_bytes (m : Memory) (p n k : Nat) (hk : k < n) : byteAt (m.bytes p n) k = m.read (p + k) := by
  simp [byteAt, Memory.bytes, List.getD, hk]

/-- R250: byte k of the canonical form. -/
theorem byteAt_canon (w k : Nat) (x : BitVec w) (hk : k < canonSize w) :
    byteAt (canon w x) k = x.extractLsb' (w - 8 - 8 * k) 8 := by
  simp [byteAt, canon, List.getD, hk]

/-- D21: the low half of VAL, as a slice or as the model cuts it. -/
theorem extractLsb'_low (x : Word64) : x.extractLsb' 0 32 = x.setWidth 32 := by
  apply BitVec.eq_of_getLsbD_eq; intro i hi; simp [hi]

end Sys2Proof.Laws
end

