-- ==== Sys2Proof/Laws/PerInstr.lean ====
section
/-! SUPPORT. Laws of every command, one lemma for each constructor of Instr. -/

namespace Sys2Proof.Laws

open Sys2Proof

/-- R106: outside the handle field the encoded word is the row's word. -/
abbrev MatchesRow.Statement (i : Instr) : Prop := encode i &&& i.rowMask = i.rowMatch

/-- R106: the handle field is outside the row's fixed bits, and the rest of the word is fixed. -/
theorem commandWord_masked (h : BitVec 8) (w : BitVec 1) (op : BitVec 4) :
    commandWord h w op &&& 0xFFFF00FF#32 = commandWord 0 w op := by
  have hm : ∀ i < 32, (0xFFFF00FF#32).getLsbD i = decide (i < 8 ∨ 16 ≤ i) := by decide
  apply BitVec.eq_of_getLsbD_eq; intro i hi
  rw [BitVec.getLsbD_and, hm i hi]
  interval_cases i <;> simp [commandWord]

theorem MatchesRow.hash32 : MatchesRow.Statement .hash32 := by decide
theorem MatchesRow.hash64 : MatchesRow.Statement .hash64 := by decide
theorem MatchesRow.create32 : MatchesRow.Statement .create32 := by decide
theorem MatchesRow.create64 : MatchesRow.Statement .create64 := by decide
theorem MatchesRow.reset32 (h : Nat) : MatchesRow.Statement (.reset32 h) :=
  (commandWord_masked (BitVec.ofNat 8 h) 0 3).trans (show commandWord 0 0 3 = 0x00000003#32 by decide)
theorem MatchesRow.reset64 (h : Nat) : MatchesRow.Statement (.reset64 h) :=
  (commandWord_masked (BitVec.ofNat 8 h) 1 3).trans (show commandWord 0 1 3 = 0x00000013#32 by decide)
theorem MatchesRow.update32 (h : Nat) : MatchesRow.Statement (.update32 h) :=
  (commandWord_masked (BitVec.ofNat 8 h) 0 4).trans (show commandWord 0 0 4 = 0x00000004#32 by decide)
theorem MatchesRow.update64 (h : Nat) : MatchesRow.Statement (.update64 h) :=
  (commandWord_masked (BitVec.ofNat 8 h) 1 4).trans (show commandWord 0 1 4 = 0x00000014#32 by decide)
theorem MatchesRow.digest32 (h : Nat) : MatchesRow.Statement (.digest32 h) :=
  (commandWord_masked (BitVec.ofNat 8 h) 0 5).trans (show commandWord 0 0 5 = 0x00000005#32 by decide)
theorem MatchesRow.digest64 (h : Nat) : MatchesRow.Statement (.digest64 h) :=
  (commandWord_masked (BitVec.ofNat 8 h) 1 5).trans (show commandWord 0 1 5 = 0x00000015#32 by decide)
theorem MatchesRow.free32 (h : Nat) : MatchesRow.Statement (.free32 h) :=
  (commandWord_masked (BitVec.ofNat 8 h) 0 6).trans (show commandWord 0 0 6 = 0x00000006#32 by decide)
theorem MatchesRow.free64 (h : Nat) : MatchesRow.Statement (.free64 h) :=
  (commandWord_masked (BitVec.ofNat 8 h) 1 6).trans (show commandWord 0 1 6 = 0x00000016#32 by decide)
theorem MatchesRow.tocanon32 : MatchesRow.Statement .tocanon32 := by decide
theorem MatchesRow.tocanon64 : MatchesRow.Statement .tocanon64 := by decide
theorem MatchesRow.fromcanon32 : MatchesRow.Statement .fromcanon32 := by decide
theorem MatchesRow.fromcanon64 : MatchesRow.Statement .fromcanon64 := by decide

end Sys2Proof.Laws
end

