-- ==== Sys2Proof/Machine/Assembler.lean ====
section
/-! DEFINITION. The notation of host programs (30_encoding.md R110, R111): from a line of text to the port actions it
stands for. What R110 and R111 leave open is settled in log 11. -/

namespace Sys2Proof.Machine

open Sys2Proof

/-- Why a line is no line of R110 or R111; nothing is emitted for it. -/
inductive AsmError where
  /-- The first word is neither WR, RD nor one of the sixteen mnemonics. -/
  | unknownName
  /-- R111: "Any other operand count is an assembly error". -/
  | operandCount
  /-- An operand that should be a number is none. -/
  | notANumber
  /-- R110: the register is not one that the action names. -/
  | notARegister
  /-- The value does not fit the register or the handle field (log 11). -/
  | valueTooWide
deriving DecidableEq, Repr

/-! ## Characters -/

/-- Blanks between words. -/
def isBlank (c : Char) : Bool := c == ' ' || c == '\t'

/-- R110: `;` starts a comment that runs to the end of the line. -/
def dropComment (cs : List Char) : List Char := cs.takeWhile fun c => c != ';'

/-- The text without blanks at its two ends. -/
def trimBlanks (cs : List Char) : List Char := ((cs.dropWhile isBlank).reverse.dropWhile isBlank).reverse

/-- The operands, which commas separate. -/
def splitCommas : List Char → List (List Char)
  | [] => [[]]
  | c :: cs =>
    match splitCommas cs with
    | [] => [[c]]
    | first :: rest => if c = ',' then [] :: first :: rest else (c :: first) :: rest

/-- The value of a digit in a base up to 16. -/
def digitValue (c : Char) : Option Nat :=
  if '0' ≤ c ∧ c ≤ '9' then some (c.toNat - '0'.toNat)
  else if 'a' ≤ c ∧ c ≤ 'f' then some (c.toNat - 'a'.toNat + 10)
  else if 'A' ≤ c ∧ c ≤ 'F' then some (c.toNat - 'A'.toNat + 10)
  else none

/-- The number of these digits, the most significant first, after the value `acc`. -/
def digitsValue (base : Nat) : Nat → List Char → Option Nat
  | acc, [] => some acc
  | acc, c :: cs =>
    match digitValue c with
    | some d => if d < base then digitsValue base (acc * base + d) cs else none
    | none => none

/-- R110, R12: a decimal number, or a hexadecimal one with a `0x` prefix, in which `_` groups digits. -/
def parseNumber (cs : List Char) : Option Nat :=
  match cs with
  | '0' :: 'x' :: ds =>
    let digits := ds.filter fun c => c != '_'
    if digits = [] then none else digitsValue 16 0 digits
  | [] => none
  | ds => digitsValue 10 0 ds

/-- A number below a bound. -/
def parseBelow (bound : Nat) (cs : List Char) : Except AsmError Nat :=
  match parseNumber cs with
  | none => .error .notANumber
  | some n => if n < bound then .ok n else .error .valueTooWide

/-! ## Mnemonics (R106, R110, R111) -/

/-- A mnemonic, the command it names and the argument registers its pseudo-instruction writes first, in order. -/
structure Mnemonic where
  name : String
  takesHandle : Bool
  command : Nat → Instr
  args : List ArgReg

/-- R106, R110 and the expansions of R111. -/
def mnemonicTable : List Mnemonic :=
  [⟨"HASH32", false, fun _ => .hash32, [.ptr, .len, .val]⟩,
   ⟨"HASH64", false, fun _ => .hash64, [.ptr, .len, .val]⟩,
   ⟨"CREATE32", false, fun _ => .create32, []⟩,
   ⟨"CREATE64", false, fun _ => .create64, []⟩,
   ⟨"RESET32", true, .reset32, [.val]⟩,
   ⟨"RESET64", true, .reset64, [.val]⟩,
   ⟨"UPDATE32", true, .update32, [.ptr, .len]⟩,
   ⟨"UPDATE64", true, .update64, [.ptr, .len]⟩,
   ⟨"DIGEST32", true, .digest32, []⟩,
   ⟨"DIGEST64", true, .digest64, []⟩,
   ⟨"FREE32", true, .free32, []⟩,
   ⟨"FREE64", true, .free64, []⟩,
   ⟨"TOCANON32", false, fun _ => .tocanon32, [.ptr, .val]⟩,
   ⟨"TOCANON64", false, fun _ => .tocanon64, [.ptr, .val]⟩,
   ⟨"FROMCANON32", false, fun _ => .fromcanon32, [.ptr]⟩,
   ⟨"FROMCANON64", false, fun _ => .fromcanon64, [.ptr]⟩]

/-- R110: a name of a register. -/
def parseReg (cs : List Char) : Option PortReg :=
  if cs = "CMD".toList then some .cmd
  else if cs = "PTR".toList then some .ptr
  else if cs = "LEN".toList then some .len
  else if cs = "VAL".toList then some .val
  else if cs = "RESULT".toList then some .result
  else if cs = "STATUS".toList then some .status
  else if cs = "CONFIG".toList then some .config
  else if cs = "VERSION".toList then some .version
  else none

/-! ## Lines -/

/-- R110: `WR <reg>, <value>`, to CMD or an argument register. -/
def assembleWrite (reg value : List Char) : Except AsmError (List HostAction) :=
  match parseReg reg with
  | some .cmd => (parseBelow (2 ^ 32) value).map fun n => [.writeCmd (BitVec.ofNat 32 n)]
  | some .ptr => (parseBelow (2 ^ 64) value).map fun n => [.writeArg .ptr (BitVec.ofNat 64 n)]
  | some .len => (parseBelow (2 ^ 64) value).map fun n => [.writeArg .len (BitVec.ofNat 64 n)]
  | some .val => (parseBelow (2 ^ 64) value).map fun n => [.writeArg .val (BitVec.ofNat 64 n)]
  | some .result => .error .notARegister
  | some .status => .error .notARegister
  | some .config => .error .notARegister
  | some .version => .error .notARegister
  | none => .error .notARegister

/-- R110: `RD <reg>`. -/
def assembleRead (reg : List Char) : Except AsmError (List HostAction) :=
  match parseReg reg with
  | some r => .ok [.readReg r]
  | none => .error .notARegister

/-- R111: the writes of a pseudo-instruction's argument registers. -/
def assembleArgs : List ArgReg → List (List Char) → Except AsmError (List HostAction)
  | [], [] => .ok []
  | r :: rs, v :: vs =>
    match parseBelow (2 ^ 64) v with
    | .error e => .error e
    | .ok n => (assembleArgs rs vs).map fun acts => .writeArg r (BitVec.ofNat 64 n) :: acts
  | [], _ :: _ => .error .operandCount
  | _ :: _, [] => .error .operandCount

/-- R110, R111: a command whose handle is known: alone, or with the operands of its pseudo-instruction, told apart by
their count. -/
def assembleWith (m : Mnemonic) (h : Nat) (operands : List (List Char)) : Except AsmError (List HostAction) :=
  if operands = [] then .ok [.writeCmd (encode (m.command h))]
  else (assembleArgs m.args operands).map fun acts => acts ++ [.writeCmd (encode (m.command h))]

/-- R110, R111: a line that begins with a mnemonic. `<h>` is a number from 0 to 255. -/
def assembleMnemonic (m : Mnemonic) (operands : List (List Char)) : Except AsmError (List HostAction) :=
  if m.takesHandle then
    match operands with
    | [] => .error .operandCount
    | hd :: rest =>
      match parseBelow 256 hd with
      | .error e => .error e
      | .ok h => assembleWith m h rest
  else assembleWith m 0 operands

/-- One line's first word and operands. -/
def assembleWords (name : List Char) (operands : List (List Char)) : Except AsmError (List HostAction) :=
  if name = "WR".toList then
    match operands with
    | [reg, value] => assembleWrite reg value
    | _ => .error .operandCount
  else if name = "RD".toList then
    match operands with
    | [reg] => assembleRead reg
    | _ => .error .operandCount
  else
    match mnemonicTable.find? fun m => name = m.name.toList with
    | some m => assembleMnemonic m operands
    | none => .error .unknownName

/-- R110: one line; a blank line, or one with a comment only, stands for no action. -/
def assembleChars (line : List Char) : Except AsmError (List HostAction) :=
  let text := trimBlanks (dropComment line)
  if text = [] then .ok []
  else
    let name := text.takeWhile fun c => !isBlank c
    let rest := trimBlanks (text.dropWhile fun c => !isBlank c)
    assembleWords name (if rest = [] then [] else (splitCommas rest).map trimBlanks)

/-- R110: one line of a host program. -/
def assembleLine (line : String) : Except AsmError (List HostAction) := assembleChars line.toList

/-- R110: a host program is a list of lines. R111 says that nothing is emitted for a bad line and not what becomes of the
others: here a program with a bad line is rejected whole, with its first bad line's error (DESIGN CHOICE, log 11). -/
def assemble : List String → Except AsmError (List HostAction)
  | [] => .ok []
  | line :: lines =>
    match assembleLine line with
    | .error e => .error e
    | .ok acts => (assemble lines).map fun more => acts ++ more

end Sys2Proof.Machine
end

