-- ==== Sys2Proof/Tests/Slice0.lean ====
section
/-! SUPPORT. Tests of single commands and functions against values of spec/95_test_vectors.md and of the rules' own
examples, and for every obligation with hypotheses a state that meets them. Each test's comment names its source. -/

namespace Sys2Proof.Tests

set_option Elab.async false

open Sys2Proof Sys2Proof.Machine Sys2Proof.Safety

/-! ## Helpers -/

/-- D41: N_CTX = 4, a little-endian host, every access admitted. -/
def cfg4 : Config where
  nCtxPred := 3
  hostBigEndian := false
  versionNumber := 7
  refused := []
  sideEffects := []

/-- Section 6: refused both ways from 0x3000, for writes only from 0x5000. -/
def cfgRefusing : Config :=
  { cfg4 with
    refused := [⟨⟨0x3000, 0x1000⟩, .read⟩, ⟨⟨0x3000, 0x1000⟩, .write⟩, ⟨⟨0x5000, 0x1000⟩, .write⟩] }

/-- After hardware reset, with these bytes at 0x1000. -/
def atStart (m : List Byte) : State := { State.reset with config := cfg4, mem := Memory.writeBytes [] 0x1000 m }

/-- `abc` at 0x1000. -/
def base : State := atStart [0x61#8, 0x62#8, 0x63#8]

/-- `P(n)`. -/
def P (n : Nat) : List Byte := (List.range n).map fun i => BitVec.ofNat 8 i

/-- With these argument registers. -/
def args (p l v : Word64) (s : State) : State := { s with ptr := p, len := l, val := v }

/-- With this context file. -/
def slots (c : ContextFile) (s : State) : State := { s with ctx := c }

/-- With these actions to come. -/
def doing (acts : List HostAction) (s : State) : State := { s with script := acts }

/-- After a fault with this code. -/
def stuck (c : Code) (s : State) : State := s.raiseFault c

/-- A READY slot right after RESET with seed 0. -/
def ready32 : Slot := .ready32 (freshAcc variant32 0)
def ready64 : Slot := .ready64 (freshAcc variant64 0)

/-- The outcome is a next state with this property. -/
def ends (o : Host.Outcome State Fault Refusal) (p : State → Bool) : Bool :=
  match o with
  | .next t => p t
  | .fault _ => false
  | .refused _ => false

/-- The outcome is the refusal of R87. -/
def refuses (o : Host.Outcome State Fault Refusal) : Bool :=
  match o with
  | .next _ => false
  | .fault _ => false
  | .refused r => r == .sideEffectingRead

theorem exists_of_ends {o : Host.Outcome State Fault Refusal} {p : State → Bool} (h : ends o p = true) :
    ∃ t, o = .next t ∧ p t = true := by
  cases o with
  | next t => exact ⟨t, rfl, h⟩
  | fault r => exact absurd h Bool.false_ne_true
  | refused r => exact absurd h Bool.false_ne_true

theorem eq_of_ends {o : Host.Outcome State Fault Refusal} {t : State} (h : ends o (fun u => u == t) = true) :
    o = .next t := by
  obtain ⟨u, rfl, hu⟩ := exists_of_ends h
  rw [eq_of_beq hu]

/-- The state after a command, or after a step, that answers one. -/
def orElse (s : State) (o : Host.Outcome State Fault Refusal) : State :=
  match o with
  | .next t => t
  | .fault _ => s
  | .refused _ => s

theorem eq_next_orElse {s : State} {o : Host.Outcome State Fault Refusal} (h : ends o (fun _ => true) = true) :
    o = .next (orElse s o) := by
  obtain ⟨u, rfl, _⟩ := exists_of_ends h
  rfl

def afterStep (s : State) : State := orElse s (step s)
def afterExec (i : Instr) (s : State) : State := orElse s (exec i s)

theorem step_afterStep {s : State} (h : ends (step s) (fun _ => true) = true) : step s = .next (afterStep s) :=
  eq_next_orElse h

theorem exec_afterExec {i : Instr} {s : State} (h : ends (exec i s) (fun _ => true) = true) :
    exec i s = .next (afterExec i s) := eq_next_orElse h

/-! ## WellFormed: a handle of more than 8 bits is refused (R104), one check a constructor -/

theorem test_reset32_handle_256_illFormed : (Instr.reset32 256).wellFormed = false := by decide
theorem test_reset64_handle_256_illFormed : (Instr.reset64 256).wellFormed = false := by decide
theorem test_update32_handle_256_illFormed : (Instr.update32 256).wellFormed = false := by decide
theorem test_update64_handle_256_illFormed : (Instr.update64 256).wellFormed = false := by decide
theorem test_digest32_handle_256_illFormed : (Instr.digest32 256).wellFormed = false := by decide
theorem test_digest64_handle_256_illFormed : (Instr.digest64 256).wellFormed = false := by decide
theorem test_free32_handle_256_illFormed : (Instr.free32 256).wellFormed = false := by decide
theorem test_free64_handle_256_illFormed : (Instr.free64 256).wellFormed = false := by decide

/-! ## Decode: every constructor, from the words of R106 (bits 15:8 the handle, bit 4 the width, bits 3:0 the OP) -/

theorem test_decode_hash32 : decode 0b00000000000000000000000000000001#32 = .ok .hash32 := by decide
theorem test_decode_hash64 : decode 0b00000000000000000000000000010001#32 = .ok .hash64 := by decide
theorem test_decode_create32 : decode 0b00000000000000000000000000000010#32 = .ok .create32 := by decide
theorem test_decode_create64 : decode 0b00000000000000000000000000010010#32 = .ok .create64 := by decide
theorem test_decode_reset32 : decode 0b00000000000000000111111100000011#32 = .ok (.reset32 127) := by decide
theorem test_decode_reset64 : decode 0b00000000000000000000001100010011#32 = .ok (.reset64 3) := by decide
theorem test_decode_update32 : decode 0b00000000000000000000000100000100#32 = .ok (.update32 1) := by decide
theorem test_decode_update64 : decode 0b00000000000000001000000000010100#32 = .ok (.update64 128) := by decide
theorem test_decode_digest32 : decode 0b00000000000000000000010000000101#32 = .ok (.digest32 4) := by decide
theorem test_decode_digest64 : decode 0b00000000000000001111111100010101#32 = .ok (.digest64 255) := by decide
theorem test_decode_free32 : decode 0b00000000000000000000000000000110#32 = .ok (.free32 0) := by decide
theorem test_decode_free64 : decode 0b00000000000000000000001000010110#32 = .ok (.free64 2) := by decide
theorem test_decode_tocanon32 : decode 0b00000000000000000000000000000111#32 = .ok .tocanon32 := by decide
theorem test_decode_tocanon64 : decode 0b00000000000000000000000000010111#32 = .ok .tocanon64 := by decide
theorem test_decode_fromcanon32 : decode 0b00000000000000000000000000001000#32 = .ok .fromcanon32 := by decide
theorem test_decode_fromcanon64 : decode 0b00000000000000000000000000011000#32 = .ok .fromcanon64 := by decide

-- V7.11 to V7.14, V6.4.
theorem test_decode_illegal :
    decode 0x00000102#32 = .error .handleNotZero ∧ decode 0x00000040#32 = .error .reservedBits ∧
    decode 0x80000011#32 = .error .reservedBits ∧ decode 0x0000001A#32 = .error .reservedOp ∧
    decode 0x00000021#32 = .error .reservedBits := by decide

-- R106, bits numbered as in spec/opcode_table.json.
theorem test_decodeTableWord_update64 : decodeTableWord 32 0x00000214 = some (.update64 2) := by decide

-- A placed word is the very next thing the machine runs, from reset.
theorem test_withFetchWord_runs_create64 :
    ends (step (State.reset.withFetchWord 32 0x00000012)) (fun t => t.result == 1 && t.cmd == 0x00000012#32) = true := by
  decide +kernel

/-! ## Functions (section 2, section 1, section 3) -/

-- V2.4, V2.9, V2.12.
theorem test_rounds : round32 0xFFFFFFFF 0xFFFFFFFF = 0xD3CFBEA2#32 ∧
    round64 0xFFFFFFFFFFFFFFFF 0xFFFFFFFFFFFFFFFF = 0xE2BA51F296AF98A7#64 ∧
    merge64 0xFFFFFFFFFFFFFFFF 0xFFFFFFFFFFFFFFFF = 0x2755FD62D36C9DCB#64 := by decide +kernel

-- V2.21, V2.25.
theorem test_folds : fold32 ⟨1, 2, 3, 4⟩ = 0x00103102#32 ∧ fold64 ⟨1, 2, 3, 4⟩ = 0xCBD45F8DA9D14190#64 := by
  decide +kernel

-- V2.31, V2.36.
theorem test_tails : tail32 0 ((P 16).drop 1) = 0x5499B0C7#32 ∧ tail64 0 ((P 32).drop 1) = 0x17BC0368A3A2A2E1#64 := by
  decide +kernel

-- V2.39, V2.43.
theorem test_avalanches : avalanche32 0xFFFFFFFF = 0x0173FB23#32 ∧
    avalanche64 0xFFFFFFFFFFFFFFFF = 0x100AB62DAADD9289#64 := by decide +kernel

-- V2.48, V2.49.
theorem test_byte_order : readLE64 ((P 9).drop 1) 0 = 0x0807060504030201#64 ∧
    bswap 32 0x01020304#32 = 0x04030201#32 := by decide +kernel

-- V3.1, the rows n = 17 and n = 100 (seed 1).
theorem test_hashBytes32 : hashBytes32 (P 17) 0 = 0x7C77ADC2#32 ∧ hashBytes32 (P 100) 1 = 0x858AFCD2#32 := by
  decide +kernel
theorem test_hashBytes64 : hashBytes64 (P 33) 0 = 0x0C535D1ACAFB8EAD#64 ∧
    hashBytes64 (P 100) 1 = 0x3D19A3A2098A7023#64 := by decide +kernel

/-! ## Commands -/

-- V3.6 (R184).
theorem test_hash32_abc : ends (exec .hash32 (args 0x1000 3 0 base))
    (fun t => t.result == 0x0000000032D153FF#64 && t.status == 0) = true := by decide +kernel
-- V6.22: the span would wrap.
theorem test_hash32_wrap : ends (exec .hash32 (args 0xFFFFFFFFFFFFFFFF 2 0 base))
    (fun t => t.result == 0 && t.status == 0x00000106#32) = true := by decide +kernel
-- V3.7 (R185).
theorem test_hash64_abc : ends (exec .hash64 (args 0x1000 3 0 base))
    (fun t => t.result == 0x44BC2CF5AD770999#64 && t.status == 0) = true := by decide +kernel
-- V6.27: byte 0x3000 refused.
theorem test_hash64_refused : ends (exec .hash64 { args 0x2FFF 2 0 base with config := cfgRefusing })
    (fun t => t.result == 0 && t.status == 0x00000107#32) = true := by decide +kernel

-- R201's example.
theorem test_create32_first : ends (exec .create32 base)
    (fun t => t.result == 1 && t.slotAt 1 == some (.uninit .w32)) = true := by decide +kernel
-- V6.26.
theorem test_create32_exhausted :
    ends (exec .create32 (slots [(1, ready32), (2, ready32), (3, .uninit .w64), (4, ready64)] base))
      (fun t => t.result == 0 && t.status == 0x00000010#32) = true := by decide +kernel
-- V4.10: slot 3, freed before, becomes a 64-bit slot.
theorem test_create64_reuses : ends (exec .create64 (slots [(1, .uninit .w32), (2, .uninit .w64), (4, .uninit .w64)] base))
    (fun t => t.result == 3 && t.slotAt 3 == some (.uninit .w64)) = true := by decide +kernel

-- R204's example, with a high half of VAL that is ignored (V4.6).
theorem test_reset32_seed0 : ends (exec (.reset32 1) (slots [(1, .uninit .w32)] (args 0 0 0x0000000100000000 base)))
    (fun t => t.slotAt 1 == some (.ready32
      ⟨⟨0x24234428#32, 0x85EBCA77#32, 0#32, 0x61C8864F#32⟩, 0#64, false, List.replicate 16 0#8, 0⟩)) = true := by
  decide +kernel
-- R205's example.
theorem test_reset64_seed0 : ends (exec (.reset64 2) (slots [(2, .uninit .w64)] base))
    (fun t => t.slotAt 2 == some (.ready64
      ⟨⟨0x60EA27EEADC0B5D6#64, 0xC2B2AE3D27D4EB4F#64, 0#64, 0x61C8864E7A143579#64⟩, 0#64, false,
        List.replicate 32 0#8, 0⟩)) = true := by decide +kernel
-- V6.11.
theorem test_reset64_width : ends (exec (.reset64 1) (slots [(1, .uninit .w32)] base))
    (fun t => t.status == 0x00000103#32 && t.slotAt 1 == some (.uninit .w32)) = true := by decide +kernel

/-- The 3 bytes of R226's example have been fed. -/
def fed3 : Slot := .ready32 (update variant32 (freshAcc variant32 0) (P 3))

-- R226's example: the buffer is completed and mixed, 7 bytes are saved.
theorem test_update32_long : ends (exec (.update32 1) (slots [(1, fed3)] (args 0x1003 20 0 (atStart (P 64)))))
    (fun t => match t.slotAt 1 with
      | some (.ready32 c) => c.lanes == ⟨0xF817BCCB#32, 0x0222719B#32, 0xD4B0C0A4#32, 0xDEBB7574#32⟩ &&
          c.totalLen == 23 && c.large && c.memsize == 7 && c.mem.take 7 == (P 23).drop 16
      | _ => false) = true := by decide +kernel
-- V6.13.
theorem test_update32_never_reset : ends (exec (.update32 1) (slots [(1, .uninit .w32)] (args 0x1000 3 0 base)))
    (fun t => t.status == 0x00000104#32) = true := by decide +kernel

/-- The 20 bytes of R227's example have been fed. -/
def fed20 : Slot := .ready64 (update variant64 (freshAcc variant64 0) (P 20))

-- R227's example.
theorem test_update64_long : ends (exec (.update64 2) (slots [(2, fed20)] (args 0x1014 20 0 (atStart (P 64)))))
    (fun t => match t.slotAt 2 with
      | some (.ready64 c) => c.lanes == ⟨0xF4B53B57406B5E99#64, 0xC3D34B511FC32561#64, 0xCB26C007C8A1553F#64,
            0x9A44D001A7F91C07#64⟩ &&
          c.totalLen == 40 && c.large && c.memsize == 8 && c.mem.take 8 == (P 40).drop 32
      | _ => false) = true := by decide +kernel
-- V6.15: the width is checked before NOT_INITIALIZED.
theorem test_update64_width : ends (exec (.update64 1) (slots [(1, .uninit .w32)] base))
    (fun t => t.status == 0x00000103#32) = true := by decide +kernel

-- R231's example, after the two UPDATEs of R226.
theorem test_digest32_23 :
    ends (exec (.digest32 1) (slots [(1, .ready32 (update variant32 (update variant32 (freshAcc variant32 0) (P 3))
      ((P 23).drop 3)))] base)) (fun t => t.result == 0x00000000C8461E09#64) = true := by decide +kernel
-- R232's example, after the two UPDATEs of R227.
theorem test_digest64_40 :
    ends (exec (.digest64 2) (slots [(2, .ready64 (update variant64 (update variant64 (freshAcc variant64 0) (P 20))
      ((P 40).drop 20)))] base)) (fun t => t.result == 0xF5DA40F1B11741E9#64) = true := by decide +kernel
-- V6.14.
theorem test_digest32_never_reset : ends (exec (.digest32 1) (slots [(1, .uninit .w32)] base))
    (fun t => t.status == 0x00000104#32 && t.result == 0) = true := by decide +kernel

-- R241's example.
theorem test_free32_ready : ends (exec (.free32 1) (slots [(1, ready32)] base))
    (fun t => t.slotAt 1 == none && t.status == 0) = true := by decide +kernel
-- V4.11.
theorem test_free32_null : ends (exec (.free32 0) base) (fun t => t == base) = true := by decide +kernel
-- V6.12: the slot is not freed.
theorem test_free64_width : ends (exec (.free64 1) (slots [(1, .uninit .w32)] base))
    (fun t => t.slotAt 1 == some (.uninit .w32) && t.status == 0x00000103#32) = true := by decide +kernel

-- V5.5: only 4 bytes are written, VAL[63:32] is ignored.
theorem test_tocanon32 :
    ends (exec .tocanon32 (args 0x1000 0 0xFFFFFFFF01020304 (atStart (List.replicate 8 0xFF#8))))
      (fun t => t.mem.bytes 0x1000 8 == [1, 2, 3, 4, 0xFF, 0xFF, 0xFF, 0xFF]) = true := by decide +kernel
-- V5.2.
theorem test_tocanon64 : ends (exec .tocanon64 (args 0x2000 0 0x44BC2CF5AD770999 base))
    (fun t => t.mem.bytes 0x2000 8 == [0x44, 0xBC, 0x2C, 0xF5, 0xAD, 0x77, 0x09, 0x99] && t.result == 0) = true := by
  decide +kernel
-- V6.24: no byte is written.
theorem test_tocanon64_wrap : ends (exec .tocanon64 (args 0xFFFFFFFFFFFFFFF9 0 1 base))
    (fun t => t.status == 0x00000106#32 && t.mem == base.mem) = true := by decide +kernel

-- V5.6.
theorem test_fromcanon32 : ends (exec .fromcanon32 (args 0x1000 0 0 (atStart (List.replicate 8 0xFF#8))))
    (fun t => t.result == 0x00000000FFFFFFFF#64) = true := by decide +kernel
-- V5.9.
theorem test_fromcanon64 : ends (exec .fromcanon64 (args 0x1000 0 0 (atStart ((P 9).drop 1))))
    (fun t => t.result == 0x0102030405060708#64) = true := by decide +kernel

/-! ## Port and assembler -/

-- R37: N_CTX = 4 in bits 15:8, HOST_BE = 0; R38.
theorem test_readReg : base.readReg .config = 0x0000000000000400#64 ∧ base.readReg .version = 7#64 := by decide +kernel

-- R30, the offsets of RESULT and VERSION; 0x40 is no register.
theorem test_regAtOffset : regAtOffset 0x20 = some .result ∧ regAtOffset 0x38 = some .version ∧
    regAtOffset 0x40 = none := by decide

-- R111, R112: the second line of program 2.
theorem test_assemble_pseudo : assembleLine "RESET64 1, 0     ; WR VAL, 0 ; WR CMD, 0x0000_0113" =
    .ok [.writeArg .val 0, .writeCmd 0x00000113#32] := by decide +kernel
-- R110: a plain action, a bare mnemonic and a read.
theorem test_assemble_plain : assembleLine "WR PTR, 0x1000" = .ok [.writeArg .ptr 0x1000#64] ∧
    assembleLine "DIGEST64 255" = .ok [.writeCmd 0x0000FF15#32] ∧ assembleLine "RD STATUS" = .ok [.readReg .status] := by
  decide +kernel
-- R110, R111: no such operand count, no such handle.
theorem test_assemble_errors : assembleLine "HASH32 0x1000, 3" = .error .operandCount ∧
    assembleLine "RESET32 256" = .error .valueTooWide := by decide +kernel

/-- Log 11: a program with a bad line is rejected whole. -/
theorem test_assemble_rejects_whole : assemble ["WR PTR, 1", "HASH32 1, 2", "HASH32"] = .error .operandCount := by
  decide +kernel

/-! ## Witnesses: a state that meets the hypotheses of each obligation that has some -/

theorem witness_DecodeOfEncodeIsIdentity :
    (Instr.update32 0).wellFormed = true ∧ (Instr.free64 255).wellFormed = true := by decide

theorem witness_EncodeOfDecodeIsIdentity : decode 0x0000FF15#32 = .ok (.digest64 255) := by decide

/-- The least and the greatest bit or code of each clause of R108. -/
theorem witness_IllegalCommandFaults :
    (doing [.writeCmd 0x00010001#32] base).faulted = false ∧
    (0x00010001#32).extractLsb' 16 16 ≠ 0#16 ∧ (0x80000011#32).extractLsb' 16 16 ≠ 0#16 ∧
    (0x00000021#32).extractLsb' 5 3 ≠ 0#3 ∧ (0x00000081#32).extractLsb' 5 3 ≠ 0#3 ∧
    (0x00000010#32).extractLsb' 0 4 = 0#4 ∧ 9 ≤ ((0x00000009#32).extractLsb' 0 4).toNat ∧
    9 ≤ ((0x0000001F#32).extractLsb' 0 4).toNat ∧
    ((0x00000101#32).extractLsb' 0 4 = 1#4 ∧ (0x00000101#32).extractLsb' 8 8 ≠ 0#8) ∧
    ((0x00008018#32).extractLsb' 0 4 = 8#4 ∧ (0x00008018#32).extractLsb' 8 8 ≠ 0#8) := by decide +kernel

theorem witness_StepRunsTheDecodedCommand :
    (doing [.writeCmd 0x00000002#32] base).faulted = false ∧ decode 0x00000002#32 = .ok .create32 := by decide +kernel

/-- The scripts of its clauses are free; the addresses are the last of the space. -/
theorem witness_HostActionsDoWhatR322Says :
    (doing [.writeArg .ptr 1] base).faulted = false ∧ 2 ^ 64 - 1 < 2 ^ 64 ∧
    readHasSideEffect (doing [.readMem (2 ^ 64 - 1)] base).config (2 ^ 64 - 1) = false ∧ base.script = [] := by
  decide +kernel

theorem witness_FaultedPortAcceptsNothing :
    (doing [.writeCmd 0x00000002#32, .writeArg .len 1, .writeReadOnly .status 0] (stuck .badHandle base)).faulted = true ∧
    (doing [.writeCmd 0x00000002#32, .writeArg .len 1, .readReg .status, .hardwareReset] (stuck .badHandle base)).script =
      [.writeCmd 0x00000002#32, .writeArg .len 1] ++ [.readReg .status, .hardwareReset] ∧
    (doing [.readReg .cmd] (stuck .badHandle base)).faulted = true := by decide +kernel

theorem witness_OnlyHardwareResetClearsFault :
    (stuck .badHandle base).faulted = true ∧ ends (exec .hash32 (stuck .badHandle base)) (fun _ => true) = true ∧
    ends (step (doing [.hardwareReset] (stuck .badHandle base))) (fun t => !t.faulted) = true ∧
    ends (step (doing [.writeCmd 0x00000000#32] (stuck .badHandle base))) (fun t => t.faulted) = true := by decide +kernel

theorem witness_FaultRecordsItsCommand :
    (doing [.writeCmd 0x00000103#32] base).faulted = false ∧
    ends (step (doing [.writeCmd 0x00000103#32] base)) (fun t => t.faulted) = true := by decide +kernel

theorem witness_HardwareResetSetsTheResetState :
    (doing [.hardwareReset] (stuck .rangeWrap (args 1 2 3 base))).script = [.hardwareReset] := rfl

theorem witness_ConfigRegisterIsConstant : ends (step (doing [.writeReadOnly .config 1] base)) (fun _ => true) = true := by
  decide +kernel

/-- One command that completes and one that faults. -/
theorem witness_CommandCompletesOrFaultsPrecisely :
    ends (exec .create64 base) (fun t => !t.faulted) = true ∧
    ends (exec (.digest64 1) base) (fun t => t.faulted) = true := by decide +kernel

/-- The stop that the statement speaks of is there. -/
theorem witness_CommandsStopOnlyAtSideEffects :
    refuses (exec .hash32 { args 0x0FFF 2 0 base with config := { cfg4 with sideEffects := [⟨0x1000, 4⟩] } }) = true := by
  decide +kernel

/-- A store of 4 bytes, the bytes just outside it; a command that drives slot 1 and one that does not; a CREATE beside an
allocated slot. -/
theorem witness_CommandFrames :
    ends (exec .tocanon32 (args 0x1000 0 0 base)) (fun _ => true) = true ∧
    byteSpan .tocanon32 (args 0x1000 0 0 base) = some (.write, 4) ∧
    ¬ (0x1000 ≤ 0x0FFF ∧ 0x0FFF < 0x1000 + 4) ∧ ¬ (0x1000 ≤ 0x1004 ∧ 0x1004 < 0x1000 + 4) ∧
    ends (exec (.reset32 2) (slots [(2, ready32)] base)) (fun _ => true) = true ∧
    ends (exec .create64 (slots [(1, ready32)] base)) (fun t => t.result == 2 && t.result != BitVec.ofNat 64 3) = true ∧
    (slots [(1, ready32)] base).slotAt 1 ≠ none := by decide +kernel

theorem witness_CommandFrames_not_driven : ¬ drives (.reset32 2) 1 ∧ ¬ drives (.digest32 1) 1 := by
  constructor
  · rintro ⟨h, _⟩; exact absurd h (by decide)
  · rintro ⟨_, h⟩; exact absurd h (by decide)

/-- The null handle, the first number above N_CTX, and the last slot, FREE. -/
theorem witness_BadHandleFaults :
    (Instr.reset32 0).handle? = some 0 ∧ isFree (.reset32 0) = false ∧
    (Instr.free64 5).handle? = some 5 ∧ base.config.nCtx < 5 ∧
    (Instr.digest32 4).handle? = some 4 ∧ phaseOf (base.slotAt 4) = .free := by decide +kernel

theorem witness_WidthMismatchFaults :
    (Instr.reset64 4).handle? = some 4 ∧ (slots [(4, ready32)] base).slotAt 4 = some ready32 ∧
    slotWidth ready32 ≠ (Instr.reset64 4).width := by decide +kernel

theorem witness_NotInitializedFaults :
    (Instr.update32 1).handle? = some 1 ∧ needsReady (.update32 1) = true ∧
    (Instr.reset32 1).handle? = some 1 ∧ isReset (.reset32 1) = true ∧
    (Instr.free32 1).handle? = some 1 ∧ isFree (.free32 1) = true ∧
    (slots [(1, .uninit .w32)] base).slotAt 1 = some (.uninit .w32) := by decide +kernel

/-- One byte at address 0, for a HASH and for an UPDATE; and no byte there. -/
theorem witness_NullPointerFaults :
    byteSpan .hash32 (args 0 1 0 base) = some (.read, 1) ∧ spanReached .hash32 (args 0 1 0 base) ∧
    byteSpan (.update64 1) (slots [(1, ready64)] (args 0 1 0 base)) = some (.read, 1) ∧
    spanReached (.update64 1) (slots [(1, ready64)] (args 0 1 0 base)) ∧ (args 0 1 0 base).ptr = 0 ∧
    byteSpan .hash64 (args 0 0 0 base) = some (.read, 0) ∧ spanReached .hash64 (args 0 0 0 base) :=
  ⟨rfl, trivial, rfl, ⟨_, rfl⟩, rfl, rfl, trivial⟩

/-- The last address with one byte too many. -/
theorem witness_RangeWrapFaults :
    byteSpan .hash32 (args 0xFFFFFFFFFFFFFFFF 2 0 base) = some (.read, 2) ∧
    spanReached .hash32 (args 0xFFFFFFFFFFFFFFFF 2 0 base) ∧ (args 0xFFFFFFFFFFFFFFFF 2 0 base).ptr ≠ 0 ∧
    2 ^ 64 < (args 0xFFFFFFFFFFFFFFFF 2 0 base).ptr.toNat + 2 :=
  ⟨by decide +kernel, trivial, by decide +kernel, by decide +kernel⟩

/-- The last byte of the span is the first refused one (V6.27); and a refused write (V6.28). -/
theorem witness_MemoryFaultFaults :
    byteSpan .hash64 { args 0x2FFF 2 0 base with config := cfgRefusing } = some (.read, 2) ∧
    spanReached .hash64 { args 0x2FFF 2 0 base with config := cfgRefusing } ∧
    (args 0x2FFF 2 0 base).ptr ≠ 0 ∧ (args 0x2FFF 2 0 base).ptr.toNat + 2 ≤ 2 ^ 64 ∧
    admits cfgRefusing ((args 0x2FFF 2 0 base).ptr.toNat + 1) .read = false ∧
    byteSpan .tocanon32 { args 0x4FFD 0 0 base with config := cfgRefusing } = some (.write, 4) ∧
    admits cfgRefusing ((args 0x4FFD 0 0 base).ptr.toNat + 3) .write = false :=
  ⟨by decide +kernel, trivial, by decide +kernel, by decide +kernel, by decide +kernel, by decide +kernel,
    by decide +kernel⟩

/-- A fault of each code. -/
theorem witness_FaultsOnlyForTheirCause :
    base.faulted = false ∧ exec (.digest32 1) base = .next (base.raiseFault .badHandle) ∧
    exec (.reset64 1) (slots [(1, ready32)] base) = .next ((slots [(1, ready32)] base).raiseFault .widthMismatch) ∧
    exec (.update32 1) (slots [(1, .uninit .w32)] base) =
      .next ((slots [(1, .uninit .w32)] base).raiseFault .notInitialized) ∧
    exec .fromcanon64 base = .next (base.raiseFault .nullPointer) ∧
    exec .tocanon64 (args 0xFFFFFFFFFFFFFFF9 0 1 base) =
      .next ((args 0xFFFFFFFFFFFFFFF9 0 1 base).raiseFault .rangeWrap) ∧
    exec .tocanon32 { args 0x5000 0 0 base with config := cfgRefusing } =
      .next (({ args 0x5000 0 0 base with config := cfgRefusing } : State).raiseFault .memoryFault) :=
  ⟨by decide +kernel, eq_of_ends (by decide +kernel), eq_of_ends (by decide +kernel), eq_of_ends (by decide +kernel),
    eq_of_ends (by decide +kernel), eq_of_ends (by decide +kernel), eq_of_ends (by decide +kernel)⟩

theorem witness_CreateWithoutFreeSlot (h : Nat) (h1 : 1 ≤ h)
    (h2 : h ≤ (slots [(1, ready32), (2, .uninit .w64), (3, ready64), (4, ready32)] base).config.nCtx) :
    phaseOf ((slots [(1, ready32), (2, .uninit .w64), (3, ready64), (4, ready32)] base).slotAt h) ≠ .free := by
  have h3 : h ≤ 4 := h2
  interval_cases h <;> decide +kernel

/-- `abc`; the last byte of the space; no byte, with PTR = 0. -/
theorem witness_HashCompletes :
    SpanReadable (args 0x1000 3 0 base) (args 0x1000 3 0 base).len.toNat ∧
    SpanReadable (args 0xFFFFFFFFFFFFFFFF 1 0 base) (args 0xFFFFFFFFFFFFFFFF 1 0 base).len.toNat ∧
    SpanReadable (args 0 0 0 base) (args 0 0 0 base).len.toNat :=
  ⟨⟨⟨by decide +kernel, by decide +kernel, by decide +kernel⟩, by decide +kernel⟩,
    ⟨⟨by decide +kernel, by decide +kernel, by decide +kernel⟩, by decide +kernel⟩,
    ⟨⟨by decide +kernel, by decide +kernel, by decide +kernel⟩, by decide +kernel⟩⟩

/-- The first slot of all FREE ones, and the last slot, the only FREE one. -/
theorem witness_CreateTakesLowestFreeSlot :
    (1 ≤ base.config.nCtx ∧ phaseOf (base.slotAt 1) = .free ∧ ∀ k, 1 ≤ k → k < 1 → phaseOf (base.slotAt k) ≠ .free) ∧
    4 ≤ base.config.nCtx ∧ phaseOf ((slots [(1, ready32), (2, ready32), (3, ready64)] base).slotAt 4) = .free ∧
    ∀ k, 1 ≤ k → k < 4 → phaseOf ((slots [(1, ready32), (2, ready32), (3, ready64)] base).slotAt k) ≠ .free := by
  refine ⟨⟨by decide +kernel, by decide +kernel, fun k h1 h2 => by omega⟩, by decide +kernel, by decide +kernel, ?_⟩
  intro k h1 h2
  interval_cases k <;> decide +kernel

/-- Of UNINIT and of READY, of either width: Reset32Completes, Reset64Completes, FreeCompletes. -/
theorem witness_ResetAndFreeComplete :
    (slots [(1, .uninit .w32)] base).slotAt 1 = some (.uninit .w32) ∧ slotWidth (.uninit .w32) = .w32 ∧
    (slots [(4, ready32)] base).slotAt 4 = some ready32 ∧ slotWidth ready32 = .w32 ∧
    (slots [(1, .uninit .w64)] base).slotAt 1 = some (.uninit .w64) ∧ slotWidth (.uninit .w64) = .w64 ∧
    (slots [(4, ready64)] base).slotAt 4 = some ready64 ∧ slotWidth ready64 = .w64 := by decide +kernel

/-- UpdateCompletes and DigestCompletes. -/
theorem witness_UpdateAndDigestComplete :
    (slots [(1, ready32)] (args 0x1000 3 0 base)).slotAt 1 = some (.ready32 (freshAcc variant32 0)) ∧
    (slots [(1, ready64)] (args 0x1000 3 0 base)).slotAt 1 = some (.ready64 (freshAcc variant64 0)) ∧
    SpanReadable (slots [(1, ready32)] (args 0x1000 3 0 base)) 3 ∧
    SpanReadable (slots [(1, ready64)] (args 0x1000 3 0 base)) 3 :=
  ⟨by decide +kernel, by decide +kernel,
    ⟨⟨by decide +kernel, by decide +kernel, by decide +kernel⟩, by decide +kernel⟩,
    ⟨⟨by decide +kernel, by decide +kernel, by decide +kernel⟩, by decide +kernel⟩⟩

/-- The last bytes of the space, and the first byte after the null address. -/
theorem witness_TocanonCompletes :
    SpanUsable (args 0xFFFFFFFFFFFFFFFC 0 0 base) .write 4 ∧ SpanUsable (args 1 0 0 base) .write 4 ∧
    SpanUsable (args 0xFFFFFFFFFFFFFFF8 0 0 base) .write 8 :=
  ⟨⟨by decide +kernel, by decide +kernel, by decide +kernel⟩, ⟨by decide +kernel, by decide +kernel, by decide +kernel⟩,
    ⟨by decide +kernel, by decide +kernel, by decide +kernel⟩⟩

theorem witness_FromcanonCompletes :
    SpanReadable (args 0xFFFFFFFFFFFFFFFC 0 0 base) 4 ∧ SpanReadable (args 0xFFFFFFFFFFFFFFF8 0 0 base) 8 :=
  ⟨⟨⟨by decide +kernel, by decide +kernel, by decide +kernel⟩, by decide +kernel⟩,
    ⟨⟨by decide +kernel, by decide +kernel, by decide +kernel⟩, by decide +kernel⟩⟩

/-- The same bytes at two addresses, one odd, with other slots. -/
theorem witness_HashDependsOnItsBytesAndSeedOnly :
    ends (exec .hash32 (args 0x1000 3 5 base)) (fun t => !t.faulted) = true ∧
    ends (exec .hash32 (slots [(1, ready64)] { args 0x0FFF 3 5 base with mem := Memory.writeBytes [] 0x0FFF [0x61#8, 0x62#8, 0x63#8] }))
      (fun t => !t.faulted) = true ∧
    ∀ k, k < 3 → Memory.read (Memory.writeBytes [] 0x0FFF [0x61#8, 0x62#8, 0x63#8]) (0x0FFF + k) =
      base.mem.read (0x1000 + k) := by
  refine ⟨by decide +kernel, by decide +kernel, fun k hk => ?_⟩
  interval_cases k <;> decide +kernel

/-- WordReaderIsLittleEndian at the last byte of a word at the end of its bytes; BswapReversesBytes. -/
theorem witness_WordReaderIsLittleEndian : (3 < 4 ∧ 0 + 4 ≤ (P 4).length) ∧ (7 < 8 ∧ 24 + 8 ≤ (P 32).length) := by decide

/-- TOCANON and then FROMCANON from the same address, of both widths; byte lists for CodecIgnoresHostOrder too. -/
theorem witness_CanonicalRoundTrip :
    ends (exec .tocanon32 (args 0x1000 0 7 base)) (fun t => !t.faulted &&
      ends (exec .fromcanon32 { t with val := 0 }) (fun v => !v.faulted)) = true ∧
    ends (exec .tocanon64 (args 0x1000 0 7 base)) (fun t => !t.faulted &&
      ends (exec .fromcanon64 { t with val := 0 }) (fun v => !v.faulted)) = true ∧
    (P 4).length = 4 ∧ (P 8).length = 8 := by decide +kernel

theorem witness_HashAtTheBoundaries :
    (P 16).length = 16 ∧ (P 32).length = 32 ∧ (P 15).length = 15 ∧ (P 31).length = 31 ∧ (P 64).length = 2 * 32 ∧
    (P 0).length = 0 * 16 := by decide

/-- A list of 2^32 bytes exists: the last clauses of HashAtTheBoundaries. -/
theorem witness_HashAtTheBoundaries_long : 2 ^ 32 ≤ (List.replicate (2 ^ 32) (0#8 : Byte)).length := by
  rw [List.length_replicate]

/-- SB - 1 bytes into an empty buffer; one byte into a buffer of SB - 1. -/
theorem witness_ShortUpdateOnlyAppends :
    (freshAcc variant32 0).mem.length = 16 ∧ (freshAcc variant32 0).memsize + (P 15).length < 16 ∧
    (freshAcc variant64 0).mem.length = 32 ∧ (freshAcc variant64 0).memsize + (P 31).length < 32 ∧
    (update variant32 (freshAcc variant32 0) (P 15)).mem.length = 16 ∧
    (update variant32 (freshAcc variant32 0) (P 15)).memsize + (P 1).length = 16 ∧
    (update variant64 (freshAcc variant64 0) (P 31)).mem.length = 32 ∧
    (update variant64 (freshAcc variant64 0) (P 31)).memsize + (P 1).length = 32 := by decide +kernel

/-- A slot right after RESET holds the empty stream: AnySplitFeedsTheSameStream, EmptyUpdateChangesNothing. -/
theorem witness_HoldsStream32 : HoldsStream variant32 0 [] (freshAcc variant32 0) :=
  ⟨by decide +kernel, by decide +kernel, by decide +kernel, by decide +kernel, by decide +kernel, by decide +kernel⟩

theorem witness_HoldsStream64 : HoldsStream variant64 0 [] (freshAcc variant64 0) :=
  ⟨by decide +kernel, by decide +kernel, by decide +kernel, by decide +kernel, by decide +kernel, by decide +kernel⟩

theorem witness_AnySplitFeedsTheSameStream :
    (update variant32 (freshAcc variant32 0) (P 15)).mem.length = 16 ∧
    (update variant32 (freshAcc variant32 0) (P 15)).memsize < 16 ∧
    (freshAcc variant64 0).mem.length = 32 ∧ (freshAcc variant64 0).memsize < 32 := by decide +kernel

theorem witness_EmptyUpdateChangesNothing :
    (slots [(1, ready32)] base).slotAt 1 = some (.ready32 (freshAcc variant32 0)) ∧
    (slots [(1, ready64)] base).slotAt 1 = some (.ready64 (freshAcc variant64 0)) ∧
    (slots [(1, ready32)] base).len = 0 := by decide +kernel

theorem witness_ResetIsIdempotent :
    isReset (.reset32 1) = true ∧ ends (exec (.reset32 1) (slots [(1, fed3)] base)) (fun t => !t.faulted) = true ∧
    isReset (.reset64 1) = true ∧ ends (exec (.reset64 1) (slots [(1, fed20)] base)) (fun t => !t.faulted) = true := by
  decide +kernel

/-- RESET32 of slot 1, an UPDATE32 of the 3 bytes at 0x1000, a DIGEST32, a write of VAL, a second DIGEST32. -/
def streaming32 : State :=
  doing [.writeCmd 0x00000103#32, .writeCmd 0x00000104#32, .writeCmd 0x00000105#32, .writeArg .val 9,
    .writeCmd 0x00000105#32] (slots [(1, .uninit .w32)] (args 0x1000 3 7 base))

/-- StreamingEqualsOneShot, ReadySlotInvariants. -/
theorem witness_StreamingEqualsOneShot32 :
    ∃ s t B rest, step streaming32 = .next s ∧ s.faulted = false ∧ Fed (.update32 1) 1 s B t ∧ B.length < 2 ^ 64 ∧
      B = [0x61#8, 0x62#8, 0x63#8] ∧ t.faulted = false ∧ t.script = .writeCmd 0x00000105#32 :: rest ∧
      decode 0x00000103#32 = .ok (.reset32 1) ∧ decode 0x00000105#32 = .ok (.digest32 1) := by
  have f0 : Fed (.update32 1) 1 (afterStep streaming32) [] (afterStep streaming32) := .nothing
  have f1 := f0.fed (word := 0x00000104#32) (t' := afterStep (afterStep streaming32)) rfl (by decide)
    (step_afterStep (by decide +kernel)) (by decide +kernel)
  have f2 := f1.other (act := .writeCmd 0x00000105#32) (t' := afterStep (afterStep (afterStep streaming32))) rfl
    (.inl ⟨by decide, fun word i h hd hi => by
      cases h
      have : i = .digest32 1 := by
        have hk : decode 0x00000105#32 = .ok (.digest32 1) := by decide
        rw [hk] at hd; cases hd; rfl
      subst this
      exact absurd hi.2 (by decide)⟩) (step_afterStep (by decide +kernel))
  have f3 := f2.other (act := .writeArg .val 9) (t' := afterStep (afterStep (afterStep (afterStep streaming32)))) rfl
    (.inl ⟨by decide, fun word i h _ => by cases h⟩) (step_afterStep (by decide +kernel))
  exact ⟨_, _, _, _, step_afterStep (by decide +kernel), by decide +kernel, f3, by decide +kernel, by decide +kernel,
    by decide +kernel, rfl, by decide, by decide⟩

/-- RESET64 of slot 2, an UPDATE64 of the 3 bytes at 0x1000, a DIGEST64. -/
def streaming64 : State :=
  doing [.writeCmd 0x00000213#32, .writeCmd 0x00000214#32, .writeCmd 0x00000215#32]
    (slots [(2, .uninit .w64)] (args 0x1000 3 7 base))

theorem witness_StreamingEqualsOneShot64 :
    ∃ s t B rest, step streaming64 = .next s ∧ s.faulted = false ∧ Fed (.update64 2) 2 s B t ∧ B.length < 2 ^ 64 ∧
      B = [0x61#8, 0x62#8, 0x63#8] ∧ t.faulted = false ∧ t.script = .writeCmd 0x00000215#32 :: rest ∧
      decode 0x00000213#32 = .ok (.reset64 2) ∧ decode 0x00000215#32 = .ok (.digest64 2) := by
  have f0 : Fed (.update64 2) 2 (afterStep streaming64) [] (afterStep streaming64) := .nothing
  have f1 := f0.fed (word := 0x00000214#32) (t' := afterStep (afterStep streaming64)) rfl (by decide)
    (step_afterStep (by decide +kernel)) (by decide +kernel)
  exact ⟨_, _, _, _, step_afterStep (by decide +kernel), by decide +kernel, f1, by decide +kernel, by decide +kernel,
    by decide +kernel, rfl, by decide, by decide⟩

/-- A faulted UPDATE is a step of a fed run too: ReadySlotInvariants speaks of the state after it. -/
theorem witness_ReadySlotInvariants_faulted :
    ∃ t, Fed (.update32 1) 1 (slots [(1, ready32)] (doing [.writeCmd 0x00000104#32] (args 0 1 0 base))) [] t ∧
      t.faulted = true := by
  refine ⟨_, Fed.nothing.other rfl (.inr ⟨by decide, ?_⟩) (step_afterStep (by decide +kernel)), ?_⟩ <;> decide +kernel

/-- CREATE of a FREE slot, RESET of an UNINIT one, FREE of a READY one. -/
theorem witness_PhaseMovesOnlyByR200 :
    ends (exec .create32 base) (fun t => phaseOf (t.slotAt 1) == .uninit) = true ∧
    ends (exec (.reset32 1) (slots [(1, .uninit .w32)] base)) (fun t => phaseOf (t.slotAt 1) == .ready) = true ∧
    ends (exec (.free32 1) (slots [(1, ready32)] base)) (fun t => phaseOf (t.slotAt 1) == .free) = true := by
  decide +kernel

theorem witness_WidthNeverChangesWhileAllocated :
    (slots [(1, .uninit .w32)] base).slotAt 1 = some (.uninit .w32) ∧
    ends (exec (.reset32 1) (slots [(1, .uninit .w32)] base)) (fun t => (t.slotAt 1).isSome) = true := by decide +kernel

theorem witness_StaleHandleFaults :
    isFree (.free32 1) = true ∧ (Instr.free32 1).handle? = some 1 ∧ (Instr.update64 1).handle? = some 1 ∧
    ends (exec (.free32 1) (slots [(1, ready32)] base)) (fun t => !t.faulted) = true := by decide +kernel

/-- The same slot 1, another slot 2; a command that names slot 1, and one that names none. -/
theorem witness_ContextsDoNotInteract :
    (Instr.digest32 1).handle? = some 1 ∧
    (slots [(1, ready32), (2, ready64)] base).slotAt 1 = (slots [(1, ready32)] base).slotAt 1 ∧
    ends (exec (.digest32 1) (slots [(1, ready32)] base)) (fun _ => true) = true ∧
    Instr.hash32.handle? = none ∧ isCreate .hash32 = false ∧
    ends (exec .hash32 (slots [(1, ready32)] base)) (fun _ => true) = true := by decide +kernel

theorem witness_HostOrderAndVersionChangeNoResult :
    ends (exec .hash64 (args 0x1000 3 0 base)) (fun _ => true) = true ∧ PortReg.result ≠ .config ∧
    PortReg.result ≠ .version := by decide +kernel

/-- A legal state with a byte in memory and a READY slot, from which a step goes on. -/
theorem witness_EveryStepKeepsTheInvariant :
    StateLegal (slots [(1, ready32)] (doing [.writeCmd 0x00000105#32] base)) ∧
    ends (step (slots [(1, ready32)] (doing [.writeCmd 0x00000105#32] base))) (fun _ => true) = true := by
  refine ⟨⟨by decide +kernel, ⟨by decide +kernel, ?_⟩, .ok, by decide +kernel⟩, by decide +kernel⟩
  intro e he
  have : e = (1, ready32) := by simpa [slots] using he
  subst this
  exact ⟨by decide, by decide +kernel, 0, [], witness_HoldsStream32⟩

end Sys2Proof.Tests
end

/-! PROOFS. 10_state.md, the stream in a READY slot (R48): a fresh accumulator holds the empty stream, UPDATE appends
its input, and the properties (a) to (e) are read off. -/

namespace Sys2Proof.Proofs

open Sys2Proof Sys2Proof.Machine Sys2Proof.Safety Sys2Proof.Laws

/-! ## Whole blocks and what is after them -/

/-- R220, R228: what is after the last whole superblock of `X` is all that `X` adds to a continuation. -/
theorem mixAll_resume {w : Nat} {V : Variant w} (hV : 0 < V.sb) (v : Lanes w) (X B : List Byte) :
    mixAll V v (X ++ B) = mixAll V (mixAll V v X) (afterBlocks V.sb X ++ B) := by
  have hblocks := blocks_length_mod V.sb X
  have hshort : (afterBlocks V.sb X).length < V.sb := by rw [afterBlocks_length]; exact Nat.mod_lt _ hV
  have hX : mixAll V v X = mixAll V v (X.take (V.sb * (X.length / V.sb))) := by
    conv_lhs => rw [← blocks_append_afterBlocks V.sb X]
    rw [mixAll_append hV v hblocks, mixAll_short _ hshort]
  rw [hX, ← mixAll_append hV v hblocks, ← List.append_assoc, blocks_append_afterBlocks]

theorem afterBlocks_resume (size : Nat) (X B : List Byte) :
    afterBlocks size (afterBlocks size X ++ B) = afterBlocks size (X ++ B) := by
  rw [← afterBlocks_append (blocks_length_mod size X), ← List.append_assoc, blocks_append_afterBlocks]

theorem afterBlocks_eq_drop (size : Nat) (X : List Byte) :
    afterBlocks size X = X.drop (X.length - X.length % size) := by
  have := Nat.div_add_mod X.length size
  rw [afterBlocks]
  congr 1
  omega

/-! ## The stream an accumulator holds -/

/-- R204, R205: RESET begins the empty stream. -/
theorem holdsStream_freshAcc {w : Nat} {V : Variant w} (hV : 0 < V.sb) (seed : BitVec w) :
    HoldsStream V seed [] (freshAcc V seed) where
  lanes := (mixAll_short (B := []) _ hV).symm
  totalLen := rfl
  large := by simp [Nat.ne_of_gt hV]
  memsize := by simp
  bufferSize := by simp
  buffer := by simp [afterBlocks]

/-- R220 to R228: UPDATE appends its input to the stream. The superblock is far smaller than 2^64, so `large`, which is
tested on the wrapped length, misses no stream that has passed it. -/
theorem holdsStream_update {w : Nat} {V : Variant w} (hV : 0 < V.sb) (hsb : V.sb ≤ 2 ^ 64) {seed : BitVec w}
    {X : List Byte} {c : Accumulator w} (hc : HoldsStream V seed X c) (B : List Byte) :
    HoldsStream V seed (X ++ B) (update V c B) := by
  obtain ⟨hlanes, htotal, hlarge, hsize, hmem, hbuf⟩ := hc
  have hlt : c.memsize < V.sb := hsize ▸ Nat.mod_lt _ hV
  obtain ⟨hlanes', hsize', hmem', hbuf'⟩ := update_buffer_and_lanes hV B hmem hlt
  rw [hbuf] at hlanes' hbuf'
  refine ⟨?_, ?_, ?_, ?_, hmem', ?_⟩
  · rw [hlanes', hlanes, ← mixAll_resume hV]
  · rw [update_totalLen, htotal, List.length_append, BitVec.ofNat_add]
  · rw [update_large, hlarge, htotal, List.length_append, BitVec.toNat_ofNat, ← Bool.decide_or]
    refine decide_eq_decide.2 ?_
    rcases Nat.lt_or_ge X.length V.sb with hX | hX
    · rw [Nat.mod_eq_of_lt (by omega)]; omega
    · omega
  · rw [hsize', hsize, List.length_append, Nat.mod_add_mod]
  · rw [hbuf', afterBlocks_resume]

/-! ## The properties of R48 -/

section Properties

variable {w : Nat} {V : Variant w} {seed : BitVec w} {B : List Byte} {c : Accumulator w}

/-- R48 (a). -/
theorem holdsStream_memsize_eq_totalLen_mod (hc : HoldsStream V seed B c) (hsb : V.sb ∣ 2 ^ 64) :
    c.memsize = c.totalLen.toNat % V.sb := by
  rw [hc.memsize, hc.totalLen, BitVec.toNat_ofNat, Nat.mod_mod_of_dvd _ hsb]

theorem holdsStream_large_iff (hc : HoldsStream V seed B c) : c.large = true ↔ V.sb ≤ B.length := by
  rw [hc.large, decide_eq_true_eq]

/-- R48 (b): no stripe has been mixed. -/
theorem holdsStream_lanes_of_not_large (hc : HoldsStream V seed B c) (hl : c.large = false) :
    c.lanes = laneInit V.numbers seed := by
  have hshort : B.length < V.sb := by
    have := holdsStream_large_iff hc
    rw [hl] at this
    simpa using this
  rw [hc.lanes, mixAll_short _ hshort]

/-- R137: lane 3 starts as the seed. -/
theorem laneInit_v3 (N : Numbers w) (seed : BitVec w) : (laneInit N seed).v3 = seed := by simp [laneInit]

/-- R48 (c). -/
theorem holdsStream_memsize_lt (hc : HoldsStream V seed B c) (hV : 0 < V.sb) : c.memsize < V.sb :=
  hc.memsize ▸ Nat.mod_lt _ hV

/-- R48 (d). -/
theorem holdsStream_buffer_eq_drop (hc : HoldsStream V seed B c) :
    c.mem.take c.memsize = B.drop (B.length - c.memsize) := by
  rw [hc.buffer, hc.memsize, afterBlocks_eq_drop]

/-- R48 (e), where the length has not wrapped. -/
theorem holdsStream_large_iff_totalLen (hc : HoldsStream V seed B c) (hB : B.length < 2 ^ 64) :
    c.large = true ↔ V.sb ≤ c.totalLen.toNat := by
  rw [holdsStream_large_iff hc, hc.totalLen, BitVec.toNat_ofNat, Nat.mod_eq_of_lt hB]

/-- R48: the properties (a) to (e) together, as a slot keeps them. -/
theorem holdsStream_properties (hc : HoldsStream V seed B c) (hV : 0 < V.sb) (hsb : V.sb ∣ 2 ^ 64) :
    c.memsize = c.totalLen.toNat % V.sb ∧
    (c.large = false → c.lanes = (freshAcc V seed).lanes ∧ c.lanes.v3 = seed) ∧
    c.memsize < V.sb ∧
    c.mem.take c.memsize = B.drop (B.length - c.memsize) ∧
    (c.large = true ↔ V.sb ≤ B.length) ∧
    c.totalLen = BitVec.ofNat 64 B.length ∧
    (B.length < 2 ^ 64 → (c.large = true ↔ V.sb ≤ c.totalLen.toNat)) := by
  refine ⟨holdsStream_memsize_eq_totalLen_mod hc hsb, fun hl => ?_, holdsStream_memsize_lt hc hV,
    holdsStream_buffer_eq_drop hc, holdsStream_large_iff hc, hc.totalLen, holdsStream_large_iff_totalLen hc⟩
  rw [holdsStream_lanes_of_not_large hc hl]
  exact ⟨rfl, laneInit_v3 _ _⟩

end Properties

end Sys2Proof.Proofs

/-! PROOFS. 10_state.md, STATUS (R36, R271) and CONFIG (R37): the bits each operation keeps. -/

namespace Sys2Proof.Proofs

open Sys2Proof Sys2Proof.Machine Sys2Proof.Safety Sys2Proof.Laws

/-! ## STATUS -/

/-- R36: bits 31:9 are not CODE's. -/
theorem reserved_withCode (st : Word32) (c : Code) :
    (withCode st c).extractLsb' 9 23 = st.extractLsb' 9 23 := by
  have hmask : ∀ i < 23, (0xFFFFFF00#32).getLsbD (9 + i) = true := by decide
  apply BitVec.eq_of_getLsbD_eq
  intro i hi
  simp [withCode, hmask i hi, BitVec.getLsbD_of_ge (codeByte c) (9 + i) (by omega), hi]

/-- R36: bits 31:9 are not FAULT. -/
theorem reserved_withFault (st : Word32) : (withFault st).extractLsb' 9 23 = st.extractLsb' 9 23 := by
  have hbit : ∀ i < 23, (0x00000100#32).getLsbD (9 + i) = false := by decide
  apply BitVec.eq_of_getLsbD_eq
  intro i hi
  simp [withFault, hbit i hi]

/-- R36: above CODE a legal STATUS has FAULT and nothing else. -/
theorem statusLegal_above_code {st : Word32} (h : statusLegal st) :
    st &&& 0xFFFFFF00#32 = if statusFault st then 0x00000100#32 else 0#32 := by
  obtain ⟨c, rfl⟩ := h
  cases c <;> decide

theorem statusLegal_complete {st : Word32} (h : statusLegal st) (hf : statusFault st = false) {c : Code}
    (hc : codeIsFault c = false) : statusLegal (withCode st c) := by
  refine ⟨c, ?_⟩
  rw [withCode, statusLegal_above_code h, hf, hc]
  exact BitVec.or_comm _ _

theorem statusLegal_fault {st : Word32} (h : statusLegal st) {c : Code} (hc : codeIsFault c = true) :
    statusLegal (withFault (withCode st c)) := by
  refine ⟨c, ?_⟩
  rw [withFault, withCode, statusLegal_above_code h, hc]
  cases statusFault st <;> cases c <;> decide

theorem statusLegal_zero : statusLegal 0 := ⟨.ok, by decide⟩

@[simp] theorem faulted_raiseFault (s : State) (c : Code) : (s.raiseFault c).faulted = true :=
  statusFault_withFault _

@[simp] theorem faulted_complete (s : State) (c : Code) : (s.complete c).faulted = s.faulted :=
  statusFault_withCode _ _

/-! ## CONFIG -/

/-- R37: CONFIG as a number; N_CTX is at most 255, so nothing is lost above bit 15. -/
theorem configRegister_toNat (c : Config) :
    (configRegister c).toNat = c.nCtx * 2 ^ 8 + if c.hostBigEndian then 1 else 0 := by
  have hN := nCtx_le c
  have hbit : (if c.hostBigEndian then 1 else 0) < 2 ^ 8 := by split <;> decide
  have hflag : (if c.hostBigEndian then 1#32 else 0#32).toNat = if c.hostBigEndian then 1 else 0 := by
    split <;> rfl
  have hshift : (BitVec.ofNat 32 c.nCtx <<< 8).toNat = c.nCtx <<< 8 := by
    rw [BitVec.toNat_shiftLeft, BitVec.toNat_ofNat, Nat.mod_eq_of_lt (by omega), Nat.shiftLeft_eq,
      Nat.mod_eq_of_lt (by omega), Nat.shiftLeft_eq]
  rw [configRegister, BitVec.toNat_or, hshift, hflag, ← Nat.shiftLeft_add_eq_or_of_lt hbit, Nat.shiftLeft_eq]

theorem readReg_config_toNat (s : State) :
    (s.readReg .config).toNat = s.config.nCtx * 2 ^ 8 + if s.config.hostBigEndian then 1 else 0 := by
  rw [← configRegister_toNat]
  exact BitVec.toNat_setWidth_of_le (by omega)

/-- R37: a field of CONFIG as digits of its value. -/
theorem readReg_config_field_toNat (s : State) (lo n : Nat) :
    ((s.readReg .config).extractLsb' lo n).toNat =
      (s.config.nCtx * 2 ^ 8 + if s.config.hostBigEndian then 1 else 0) / 2 ^ lo % 2 ^ n := by
  rw [BitVec.extractLsb'_toNat, readReg_config_toNat, Nat.shiftRight_eq_div_pow]

end Sys2Proof.Proofs

/-! PROOFS. What one command does to one slot, to host memory and to the other registers, read once off the cases of
`Effect` (R32, R33, R71, R200). -/

namespace Sys2Proof.Proofs

open Sys2Proof Sys2Proof.Machine Sys2Proof.Safety Sys2Proof.Laws

/-! ## One slot -/

/-- What command `i` does to slot `h` (R200): the slot before and after, and RESULT after. -/
inductive SlotMove (i : Instr) (h : Nat) (before after : Option Slot) (result : Word64) : Prop
  | kept : after = before → SlotMove i h before after result
  | created : isCreate i = true → before = none → after = some (.uninit i.width) → result = BitVec.ofNat 64 h →
      SlotMove i h before after result
  | reset (a b : Slot) : isReset i = true → i.handle? = some h → before = some a → after = some b →
      slotWidth a = i.width → slotWidth b = i.width → phaseOf (some b) = .ready → SlotMove i h before after result
  | updated (a b : Slot) : isUpdate i = true → i.handle? = some h → before = some a → after = some b →
      slotWidth a = i.width → slotWidth b = i.width → phaseOf (some a) = .ready →
      phaseOf (some b) = .ready → SlotMove i h before after result
  | freed (a : Slot) : isFree i = true → i.handle? = some h → before = some a → after = none →
      SlotMove i h before after result

theorem hasSlot_of_slotAt {s : State} {h : Nat} {slot : Slot} (hs : s.slotAt h = some slot) :
    hasSlot s.config h = true := (hasSlot_iff _ _).2 ((slotAt_eq_some_iff s h slot).1 hs).2

/-- The slot CREATE takes was FREE. -/
theorem slotAt_of_leastFree {s : State} {h : Nat} (hl : leastFree s.config s.ctx = some h) :
    hasSlot s.config h = true ∧ s.slotAt h = none := by
  obtain ⟨hr, hfree, _⟩ := (leastFree_eq_some_iff _ _ _).1 hl
  exact ⟨(hasSlot_iff _ _).2 hr, by simp [State.slotAt, hfree]⟩

/-- A command that writes slot `k` alone keeps every other slot. -/
theorem slotMove_of_self {i : Instr} {h k : Nat} {s t : State} (hother : h ≠ k → t.slotAt h = s.slotAt h)
    (hself : SlotMove i k (s.slotAt k) (t.slotAt k) t.result) :
    SlotMove i h (s.slotAt h) (t.slotAt h) t.result := by
  by_cases hhk : h = k
  · exact hhk ▸ hself
  · exact .kept (hother hhk)

theorem effect_slotMove {i : Instr} {s u : State} {c : Code} (he : Effect i s u c) (h : Nat) :
    SlotMove i h (s.slotAt h) (u.slotAt h) u.result := by
  have self {k : Nat} {a : Slot} (hs : s.slotAt k = some a) (b : Slot) : (s.withSlot k b).slotAt k = some b :=
    slotAt_withSlot_self (hasSlot_of_slotAt hs) b
  cases he with
  | createSome k hi hl =>
    obtain ⟨hk, hfree⟩ := slotAt_of_leastFree hl
    exact slotMove_of_self (slotAt_withSlot_other · _)
      (.created hi hfree (slotAt_withSlot_self hk _) (by simp))
  | reset32 k a x hi hs hw _ =>
    subst hi
    exact slotMove_of_self (slotAt_withSlot_other · _) (.reset a _ rfl rfl hs (self hs _) hw rfl rfl)
  | reset64 k a x hi hs hw _ =>
    subst hi
    exact slotMove_of_self (slotAt_withSlot_other · _) (.reset a _ rfl rfl hs (self hs _) hw rfl rfl)
  | update32 k a x hi hs _ _ =>
    subst hi
    exact slotMove_of_self (slotAt_withSlot_other · _) (.updated _ _ rfl rfl hs (self hs _) rfl rfl rfl rfl)
  | update64 k a x hi hs _ _ =>
    subst hi
    exact slotMove_of_self (slotAt_withSlot_other · _) (.updated _ _ rfl rfl hs (self hs _) rfl rfl rfl rfl)
  | free k a hi hh _ hs _ =>
    exact slotMove_of_self slotAt_freeSlot_other (.freed a hi hh hs (slotAt_freeSlot_self _ _))
  | _ => exact .kept rfl

/-- R200, R203: everything a command can do to a slot. -/
theorem exec_slotMove {i : Instr} {s t : State} (he : exec i s = .next t) (h : Nat) :
    SlotMove i h (s.slotAt h) (t.slotAt h) t.result := by
  rcases exec_next he with ⟨c, _, rfl⟩ | ⟨u, c, heff, rfl⟩
  · exact .kept rfl
  · exact (effect_slotMove heff h :)

/-- CREATE names no slot, so it drives none. -/
theorem not_drives_of_isCreate {i : Instr} (hi : isCreate i = true) (h : Nat) : ¬ drives i h := by
  rintro ⟨hh, _⟩
  cases i with
  | create32 => cases hh
  | create64 => cases hh
  | _ => cases hi

/-- R89, R203: a slot changes only under a command that drives it, or under the CREATE that took it when it was FREE and
gives its number. -/
theorem slotAt_of_not_drives {i : Instr} {s t : State} {h : Nat} (he : exec i s = .next t) (hd : ¬ drives i h)
    (hc : isCreate i = true → s.slotAt h ≠ none ∨ t.result ≠ BitVec.ofNat 64 h) : t.slotAt h = s.slotAt h := by
  cases exec_slotMove he h with
  | kept hk => exact hk
  | created hi hfree _ hr => exact ((hc hi).elim (· hfree) (· hr)).elim
  | reset _ _ hi hh => exact absurd ⟨hh, by simp [hi]⟩ hd
  | updated _ _ hi hh => exact absurd ⟨hh, by simp [hi]⟩ hd
  | freed _ hi hh => exact absurd ⟨hh, by simp [hi]⟩ hd

/-! ## Host memory -/

/-- R71: what a command does to host memory: nothing, or TOCANON's bytes at PTR. -/
theorem effect_mem {i : Instr} {s u : State} {c : Code} (he : Effect i s u c) :
    u.mem = s.mem ∨ ∃ x : List Byte, isTocanon i = true ∧ byteSpan i s = some (.write, x.length) ∧
      SpanUsable s .write x.length ∧ u.mem = s.mem.writeBytes s.ptr.toNat x := by
  cases he with
  | tocanon32 x hi hs hx =>
    have hlen : x.length = 4 := by rw [hx, canon_length]; rfl
    exact .inr ⟨x, by rw [hi]; rfl, by rw [hi, hlen]; rfl, by rwa [hlen], rfl⟩
  | tocanon64 x hi hs hx =>
    have hlen : x.length = 8 := by rw [hx, canon_length]; rfl
    exact .inr ⟨x, by rw [hi]; rfl, by rw [hi, hlen]; rfl, by rwa [hlen], rfl⟩
  | _ => exact .inl rfl

/-! ## The other registers -/

/-- R31, R32, R36: the registers and the host's fields no command writes; STATUS is left to completion. -/
theorem effect_registers {i : Instr} {s u : State} {c : Code} (he : Effect i s u c) :
    u = { s with result := u.result, ctx := u.ctx, mem := u.mem } := by
  cases he <;> rfl

/-- R33. -/
theorem effect_result {i : Instr} {s u : State} {c : Code} (he : Effect i s u c) (hi : writesResult i = false) :
    u.result = s.result := by
  cases he with
  | hash32 _ h => simp [h, writesResult] at hi
  | hash64 _ h => simp [h, writesResult] at hi
  | createNone h => cases i <;> simp [isCreate, writesResult] at h hi
  | createSome _ h => cases i <;> simp [isCreate, writesResult] at h hi
  | digest32 _ _ _ h => simp [h, writesResult] at hi
  | digest64 _ _ _ h => simp [h, writesResult] at hi
  | fromcanon32 _ h => simp [h, writesResult] at hi
  | fromcanon64 _ h => simp [h, writesResult] at hi
  | _ => rfl

/-- R270: the code a completion writes is no fault's. -/
theorem effect_code {i : Instr} {s u : State} {c : Code} (he : Effect i s u c) : codeIsFault c = false := by
  cases he <;> rfl

/-- R31, R32: what no command writes. -/
theorem exec_registers {i : Instr} {s t : State} (he : exec i s = .next t) :
    t.config = s.config ∧ t.cmd = s.cmd ∧ t.ptr = s.ptr ∧ t.len = s.len ∧ t.val = s.val ∧
      t.script = s.script ∧ t.position = s.position ∧ t.seen = s.seen := by
  rcases exec_next he with ⟨c, _, rfl⟩ | ⟨u, c, heff, rfl⟩
  · exact ⟨rfl, rfl, rfl, rfl, rfl, rfl, rfl, rfl⟩
  · rw [effect_registers heff]
    exact ⟨rfl, rfl, rfl, rfl, rfl, rfl, rfl, rfl⟩

/-- No command changes the block's parameters (R37, R38). -/
theorem exec_config {i : Instr} {s t : State} (he : exec i s = .next t) : t.config = s.config :=
  (exec_registers he).1

/-- R36: no command writes bits 31:9 of STATUS. -/
theorem exec_reserved {i : Instr} {s t : State} (he : exec i s = .next t) :
    t.status.extractLsb' 9 23 = s.status.extractLsb' 9 23 := by
  rcases exec_next he with ⟨c, _, rfl⟩ | ⟨u, c, heff, rfl⟩
  · rw [raiseFault_status, reserved_withFault, reserved_withCode]
  · rw [complete_status, reserved_withCode, effect_registers heff]

/-- R33. -/
theorem exec_result {i : Instr} {s t : State} (he : exec i s = .next t) (hi : writesResult i = false) :
    t.result = s.result := by
  rcases exec_next he with ⟨c, _, rfl⟩ | ⟨u, c, heff, rfl⟩
  · rfl
  · exact (effect_result heff hi :)

/-- R71: what a command does to host memory. -/
theorem exec_mem {i : Instr} {s t : State} (he : exec i s = .next t) :
    t.mem = s.mem ∨ ∃ x : List Byte, isTocanon i = true ∧ byteSpan i s = some (.write, x.length) ∧
      t.mem = s.mem.writeBytes s.ptr.toNat x := by
  rcases exec_next he with ⟨c, _, rfl⟩ | ⟨u, c, heff, rfl⟩
  · exact .inl rfl
  · rcases effect_mem heff with h | ⟨x, hi, hspan, _, h⟩
    · exact .inl h
    · exact .inr ⟨x, hi, hspan, h⟩

/-- R270: a command that ends with FAULT = 0 had its effect, from FAULT = 0. -/
theorem exec_completed {i : Instr} {s t : State} (he : exec i s = .next t) (hf : t.faulted = false) :
    s.faulted = false ∧ ∃ u c, Effect i s u c ∧ t = u.complete c := by
  rcases exec_next he with ⟨c, _, rfl⟩ | ⟨u, c, heff, rfl⟩
  · simp at hf
  · refine ⟨?_, u, c, heff, rfl⟩
    rw [faulted_complete, effect_registers heff] at hf
    exact hf

end Sys2Proof.Proofs

/-! PROOFS. Everything one step can do (R321, R322), by the host's action. -/

namespace Sys2Proof.Proofs

open Sys2Proof Sys2Proof.Machine Sys2Proof.Safety Sys2Proof.Laws

/-- What the action `act` does to the state `s` in which the host's list has moved on (R322). `quiet` is every action
that leaves slots, memory, STATUS and parameters: arguments, read-only registers, reads, a CMD write at FAULT = 1. -/
inductive HostMove (act : HostAction) (s : State) : State → Prop
  | illegal (word : Word32) (e : Illegal) : act = .writeCmd word → s.faulted = false → decode word = .error e →
      HostMove act s (State.raiseFault { s with cmd := word } .illegalCommand)
  | command (word : Word32) (i : Instr) (t : State) : act = .writeCmd word → s.faulted = false →
      decode word = .ok i → exec i { s with cmd := word } = .next t → HostMove act s t
  | memory (a : Nat) (b : Byte) : act = .writeMem a b → a < 2 ^ 64 →
      HostMove act s { s with mem := s.mem.write a b }
  | reset : act = .hardwareReset → HostMove act s s.hardwareReset
  | quiet (t : State) : act ≠ .hardwareReset → t.config = s.config → t.ctx = s.ctx → t.mem = s.mem →
      t.status = s.status → HostMove act s t

theorem hostMove_writeCmd {word : Word32} {s t : State} (h : portWriteCmd word s = .next t) :
    HostMove (.writeCmd word) s t := by
  unfold portWriteCmd at h
  split at h
  · cases h
    exact .quiet _ (by simp) rfl rfl rfl rfl
  · next hf =>
    have hf : s.faulted = false := Bool.eq_false_iff.2 hf
    unfold runWord at h
    split at h
    · next e he =>
      cases h
      exact .illegal word e rfl hf he
    · next i hi => exact .command word i t rfl hf hi h

theorem hostMove_writeArg (r : ArgReg) (v : Word64) (s : State) :
    HostMove (.writeArg r v) s (portWriteArg r v s) := by
  unfold portWriteArg
  split
  · exact .quiet _ (by simp) rfl rfl rfl rfl
  · cases r <;> exact .quiet _ (by simp) rfl rfl rfl rfl

/-- R322: everything an action can do. -/
theorem hostAct_next {act : HostAction} {s t : State} (h : hostAct act s = .next t) : HostMove act s t := by
  cases act with
  | writeCmd word => exact hostMove_writeCmd h
  | writeArg r v => cases h; exact hostMove_writeArg r v s
  | writeReadOnly r v => cases h; exact .quiet _ (by simp) rfl rfl rfl rfl
  | readReg r => cases h; exact .quiet _ (by simp) rfl rfl rfl rfl
  | writeMem a b =>
    change hostWriteMem a b s = _ at h
    unfold hostWriteMem at h
    split at h
    · next ha => cases h; exact .memory a b rfl ha
    · cases h
  | readMem a =>
    change hostReadMem a s = _ at h
    unfold hostReadMem at h
    split at h
    · cases h
    · split at h
      · cases h
      · cases h; exact .quiet _ (by simp) rfl rfl rfl rfl
  | hardwareReset => cases h; exact .reset rfl

/-- R321: everything a step can do. -/
theorem step_next {s t : State} (h : step s = .next t) :
    t = s ∨ ∃ act rest, s.script = act :: rest ∧ HostMove act (s.advance rest) t := by
  cases hs : s.script with
  | nil => rw [step_idle hs] at h; cases h; exact .inl rfl
  | cons act rest => rw [step_action hs] at h; exact .inr ⟨act, rest, rfl, hostAct_next h⟩

/-- R37, R38: no step changes the block's parameters. -/
theorem step_config {s t : State} (h : step s = .next t) : t.config = s.config := by
  rcases step_next h with rfl | ⟨act, rest, _, hm⟩
  · rfl
  · cases hm with
    | illegal => rfl
    | command word i _ _ _ _ he => exact (exec_config he :)
    | memory => rfl
    | reset => rfl
    | quiet _ _ hc => exact hc

/-- R31, R80: a step at a CMD write of a legal word runs the command. -/
theorem step_command {s : State} {word : Word32} {rest : List HostAction} {i : Instr} (hf : s.faulted = false)
    (hs : s.script = .writeCmd word :: rest) (hi : decode word = .ok i) :
    step s = exec i { s with cmd := word, script := rest, position := s.position + 1 } := by
  rw [step_writeCmd hf hs, runWord, hi]

/-- R284, R270: a step at a CMD write of a legal word that ends with FAULT = 0 had the command's effect. -/
theorem step_completed {s t : State} {word : Word32} {rest : List HostAction} {i : Instr}
    (hs : s.script = .writeCmd word :: rest) (hi : decode word = .ok i) (h : step s = .next t)
    (hf : t.faulted = false) :
    ∃ u c, Effect i { s with cmd := word, script := rest, position := s.position + 1 } u c ∧ t = u.complete c := by
  have hsf : s.faulted = false := by
    by_contra hsf
    rw [step_writeCmd_faulted (Bool.not_eq_false _ ▸ hsf) hs] at h
    cases h
    exact hsf hf
  rw [step_command hsf hs hi] at h
  exact (exec_completed h hf).2

end Sys2Proof.Proofs

/-! PROOFS. The invariant of the machine: the reset state meets it and every step keeps it (R36, R40, R48, R70). -/

namespace Sys2Proof.Proofs

open Sys2Proof Sys2Proof.Machine Sys2Proof.Safety Sys2Proof.Laws

/-! ## The context file -/

theorem contextsLegal_nil (c : Config) : contextsLegal c [] := ⟨List.Pairwise.nil, by simp⟩

theorem contextsLegal_insert {c : Config} {ctx : ContextFile} (hctx : contextsLegal c ctx) {h : Nat} {slot : Slot}
    (hh : 1 ≤ h ∧ h ≤ c.nCtx) (hs : slotLegal slot) : contextsLegal c (sparseInsert h slot ctx) := by
  refine ⟨sparseInsert_rising hctx.1, fun e he => ?_⟩
  rcases mem_sparseInsert he with rfl | he
  · exact ⟨hh.1, hh.2, hs⟩
  · exact hctx.2 e he

theorem contextsLegal_erase {c : Config} {ctx : ContextFile} (hctx : contextsLegal c ctx) (h : Nat) :
    contextsLegal c (sparseErase h ctx) :=
  ⟨sparseErase_rising hctx.1, fun e he => hctx.2 e (mem_sparseErase he).1⟩

/-- R48: an allocated slot of a legal context file is legal. -/
theorem slotLegal_of_slotAt {s : State} (hctx : contextsLegal s.config s.ctx) {h : Nat} {slot : Slot}
    (hs : s.slotAt h = some slot) : slotLegal slot :=
  (hctx.2 _ (mem_of_sparseFind ((slotAt_eq_some_iff s h slot).1 hs).1)).2.2

theorem slotLegal_fresh32 (seed : Word32) : slotLegal (.ready32 (freshAcc variant32 seed)) :=
  ⟨seed, [], holdsStream_freshAcc (by decide) seed⟩

theorem slotLegal_fresh64 (seed : Word64) : slotLegal (.ready64 (freshAcc variant64 seed)) :=
  ⟨seed, [], holdsStream_freshAcc (by decide) seed⟩

theorem slotLegal_update32 {c : Accumulator 32} (hc : slotLegal (.ready32 c)) (B : List Byte) :
    slotLegal (.ready32 (update variant32 c B)) := by
  obtain ⟨seed, X, hX⟩ := hc
  exact ⟨seed, X ++ B, holdsStream_update (by decide) (by decide) hX B⟩

theorem slotLegal_update64 {c : Accumulator 64} (hc : slotLegal (.ready64 c)) (B : List Byte) :
    slotLegal (.ready64 (update variant64 c B)) := by
  obtain ⟨seed, X, hX⟩ := hc
  exact ⟨seed, X ++ B, holdsStream_update (by decide) (by decide) hX B⟩

theorem effect_contextsLegal {i : Instr} {s u : State} {c : Code} (he : Effect i s u c)
    (hctx : contextsLegal s.config s.ctx) : contextsLegal u.config u.ctx := by
  have range {h : Nat} {slot : Slot} (hs : s.slotAt h = some slot) : 1 ≤ h ∧ h ≤ s.config.nCtx :=
    ((slotAt_eq_some_iff s h slot).1 hs).2
  cases he with
  | createSome h _ hl => exact contextsLegal_insert hctx ((leastFree_eq_some_iff _ _ _).1 hl).1 trivial
  | reset32 h _ _ _ hs _ hx => exact contextsLegal_insert hctx (range hs) (hx ▸ slotLegal_fresh32 _)
  | reset64 h _ _ _ hs _ hx => exact contextsLegal_insert hctx (range hs) (hx ▸ slotLegal_fresh64 _)
  | update32 h _ _ _ hs _ hx =>
    exact contextsLegal_insert hctx (range hs) (hx ▸ slotLegal_update32 (slotLegal_of_slotAt hctx hs) _)
  | update64 h _ _ _ hs _ hx =>
    exact contextsLegal_insert hctx (range hs) (hx ▸ slotLegal_update64 (slotLegal_of_slotAt hctx hs) _)
  | free h => exact contextsLegal_erase hctx h
  | _ => exact hctx

/-! ## Host memory -/

/-- R70, R78: the checked span of TOCANON stays within the address space. -/
theorem effect_memory_wf {i : Instr} {s u : State} {c : Code} (he : Effect i s u c) (hm : s.mem.wf) : u.mem.wf := by
  rcases effect_mem he with h | ⟨x, _, _, hs, h⟩
  · rwa [h]
  · rw [h]
    refine writeBytes_wf hm x ?_
    by_cases hx : x.length = 0
    · have := s.ptr.isLt; omega
    · exact hs.noWrap hx

/-! ## Commands and steps -/

theorem stateLegal_congr {s t : State} (hs : StateLegal s) (hc : t.config = s.config) (hx : t.ctx = s.ctx)
    (hm : t.mem = s.mem) (hst : t.status = s.status) : StateLegal t :=
  ⟨hm ▸ hs.memory, hc ▸ hx ▸ hs.contexts, hst ▸ hs.status⟩

theorem stateLegal_raiseFault {s : State} (hs : StateLegal s) {c : Code} (hc : codeIsFault c = true) :
    StateLegal (s.raiseFault c) := ⟨hs.memory, hs.contexts, statusLegal_fault hs.status hc⟩

/-- A command keeps the invariant where the port lets it run, at FAULT = 0 (R284). -/
theorem exec_stateLegal {i : Instr} {s t : State} (hs : StateLegal s) (hf : s.faulted = false)
    (he : exec i s = .next t) : StateLegal t := by
  rcases exec_next he with ⟨c, hc, rfl⟩ | ⟨u, c, heff, rfl⟩
  · exact stateLegal_raiseFault hs hc
  · have hst : u.status = s.status := by rw [effect_registers heff]
    have hmem : u.mem.wf := effect_memory_wf heff hs.memory
    have hctx : contextsLegal u.config u.ctx := effect_contextsLegal heff hs.contexts
    have hcode : statusLegal (withCode u.status c) := hst ▸ statusLegal_complete hs.status hf (effect_code heff)
    exact ⟨hmem, hctx, hcode⟩

theorem stateLegal_advance {s : State} (hs : StateLegal s) (rest : List HostAction) : StateLegal (s.advance rest) :=
  stateLegal_congr hs rfl rfl rfl rfl

theorem stateLegal_withCmd {s : State} (hs : StateLegal s) (word : Word32) : StateLegal { s with cmd := word } :=
  stateLegal_congr hs rfl rfl rfl rfl

theorem hostMove_stateLegal {act : HostAction} {s t : State} (hs : StateLegal s) (hm : HostMove act s t) :
    StateLegal t := by
  cases hm with
  | illegal word e => exact stateLegal_raiseFault (stateLegal_withCmd hs word) rfl
  | command word i _ _ hf _ he => exact exec_stateLegal (stateLegal_withCmd hs word) hf he
  | memory a b _ ha => exact ⟨write_wf hs.memory ha b, hs.contexts, hs.status⟩
  | reset => exact ⟨hs.memory, contextsLegal_nil _, statusLegal_zero⟩
  | quiet _ _ hc hx hm hst => exact stateLegal_congr hs hc hx hm hst

/-- Settles O54, by the cases of a step; a READY slot's stream is the emptied or the extended one. -/
theorem everyStepKeepsTheInvariant : Obligations.EveryStepKeepsTheInvariant := by
  intro s t hs h
  rcases step_next h with rfl | ⟨act, rest, _, hm⟩
  · exact hs
  · exact hostMove_stateLegal (stateLegal_advance hs rest) hm

/-- Settles O55. -/
theorem resetStateIsLegal : Obligations.ResetStateIsLegal where
  memory := ⟨List.Pairwise.nil, fun _ h => nomatch h⟩
  contexts := contextsLegal_nil _
  status := statusLegal_zero

end Sys2Proof.Proofs

/-! PROOFS. One stream through one slot (R48, R234): the induction over a run that feeds a slot. -/

namespace Sys2Proof.Proofs

open Sys2Proof Sys2Proof.Machine Sys2Proof.Safety Sys2Proof.Laws

/-- A step that leaves the slot alone, or that ends faulted and is no hardware reset, keeps an allocated slot. -/
theorem step_keeps_slot {s t : State} {act : HostAction} {rest : List HostAction} {h : Nat} {slot : Slot}
    (hscript : s.script = act :: rest)
    (hact : leavesSlot act h ∨ (act ≠ .hardwareReset ∧ t.faulted = true)) (hstep : step s = .next t)
    (hs : s.slotAt h = some slot) : t.slotAt h = some slot := by
  have hnoreset : act ≠ .hardwareReset := hact.elim And.left And.left
  rw [step_action hscript] at hstep
  rw [← hs]
  cases hostAct_next hstep with
  | illegal => rfl
  | command word i _ hword hf hi he =>
    rcases exec_next he with ⟨c, _, rfl⟩ | ⟨u, c, heff, rfl⟩
    · rfl
    · have hd : ¬ drives i h := by
        rcases hact with ⟨_, hleave⟩ | ⟨_, hfault⟩
        · exact hleave word i hword hi
        · rw [faulted_complete, effect_registers heff] at hfault
          exact absurd hfault (Bool.eq_false_iff.1 hf)
      exact (slotAt_of_not_drives he hd fun _ => .inl fun hn => nomatch hs.symm.trans hn :)
  | memory => rfl
  | reset hr => exact absurd hr hnoreset
  | quiet _ _ hc hx => exact slotAt_congr hc hx h

/-- R48: over any run that feeds a slot, from its RESET on, the slot holds the stream of the bytes fed. -/
theorem fed_holdsStream {w : Nat} {V : Variant w} (hV : 0 < V.sb) (hsb : V.sb ≤ 2 ^ 64) {feed : Instr} {h : Nat}
    {s t : State} {B : List Byte} {seed : BitVec w}
    (hfeed : ∀ {u u' : State} {c : Code} {acc : Accumulator w}, Effect feed u u' c →
      u.slotAt h = some (V.ready acc) → u'.slotAt h = some (V.ready (update V acc u.input)))
    (hs : s.slotAt h = some (V.ready (freshAcc V seed))) (hfed : Fed feed h s B t) :
    ∃ c, t.slotAt h = some (V.ready c) ∧ HoldsStream V seed B c := by
  induction hfed with
  | nothing => exact ⟨_, hs, holdsStream_freshAcc hV seed⟩
  | fed _ hscript hword hstep hf ih =>
    obtain ⟨acc, hslot, hacc⟩ := ih
    obtain ⟨u, c, heff, rfl⟩ := step_completed hscript hword hstep hf
    exact ⟨_, (hfeed heff hslot :), holdsStream_update hV hsb hacc _⟩
  | other _ hscript hact hstep ih =>
    obtain ⟨acc, hslot, hacc⟩ := ih
    exact ⟨acc, step_keeps_slot hscript hact hstep hslot, hacc⟩

/-! ## The two widths -/

theorem effect_reset32 {s u : State} {c : Code} {h : Nat} (he : Effect (.reset32 h) s u c) :
    u.slotAt h = some (.ready32 (freshAcc variant32 (s.valOperand 32))) := by
  cases he with
  | reset32 _ _ _ hk hs _ hx =>
    cases hk
    rw [hx, slotAt_withSlot_self (hasSlot_of_slotAt hs)]
  | _ => simp_all [isCreate, isFree]

theorem effect_reset64 {s u : State} {c : Code} {h : Nat} (he : Effect (.reset64 h) s u c) :
    u.slotAt h = some (.ready64 (freshAcc variant64 (s.valOperand 64))) := by
  cases he with
  | reset64 _ _ _ hk hs _ hx =>
    cases hk
    rw [hx, slotAt_withSlot_self (hasSlot_of_slotAt hs)]
  | _ => simp_all [isCreate, isFree]

theorem effect_update32 {s u : State} {c : Code} {h : Nat} {acc : Accumulator 32} (he : Effect (.update32 h) s u c)
    (hs : s.slotAt h = some (.ready32 acc)) : u.slotAt h = some (.ready32 (update variant32 acc s.input)) := by
  cases he with
  | update32 _ _ _ hk hs' _ hx =>
    cases hk
    cases hs.symm.trans hs'
    rw [hx, slotAt_withSlot_self (hasSlot_of_slotAt hs)]
  | _ => simp_all [isCreate, isFree]

theorem effect_update64 {s u : State} {c : Code} {h : Nat} {acc : Accumulator 64} (he : Effect (.update64 h) s u c)
    (hs : s.slotAt h = some (.ready64 acc)) : u.slotAt h = some (.ready64 (update variant64 acc s.input)) := by
  cases he with
  | update64 _ _ _ hk hs' _ hx =>
    cases hk
    cases hs.symm.trans hs'
    rw [hx, slotAt_withSlot_self (hasSlot_of_slotAt hs)]
  | _ => simp_all [isCreate, isFree]

/-- R204: what RESET32 leaves in the slot. -/
theorem slotAt_of_step_reset32 {s t : State} {h : Nat} {word : Word32} {rest : List HostAction}
    (hs : s.script = .writeCmd word :: rest) (hi : decode word = .ok (.reset32 h)) (hstep : step s = .next t)
    (hf : t.faulted = false) : t.slotAt h = some (.ready32 (freshAcc variant32 (s.valOperand 32))) := by
  obtain ⟨u, c, heff, rfl⟩ := step_completed hs hi hstep hf
  exact (effect_reset32 heff :)

/-- R205: what RESET64 leaves in the slot. -/
theorem slotAt_of_step_reset64 {s t : State} {h : Nat} {word : Word32} {rest : List HostAction}
    (hs : s.script = .writeCmd word :: rest) (hi : decode word = .ok (.reset64 h)) (hstep : step s = .next t)
    (hf : t.faulted = false) : t.slotAt h = some (.ready64 (freshAcc variant64 (s.valOperand 64))) := by
  obtain ⟨u, c, heff, rfl⟩ := step_completed hs hi hstep hf
  exact (effect_reset64 heff :)

/-- R48, R226: after any run that has fed `B` to a slot since its RESET32, the slot holds the stream `B`. -/
theorem fed_holdsStream32 {s t : State} {h : Nat} {B : List Byte} {seed : Word32}
    (hs : s.slotAt h = some (.ready32 (freshAcc variant32 seed))) (hfed : Fed (.update32 h) h s B t) :
    ∃ c, t.slotAt h = some (.ready32 c) ∧ HoldsStream variant32 seed B c :=
  fed_holdsStream (V := variant32) (by decide) (by decide) effect_update32 hs hfed

/-- R48, R227: after any run that has fed `B` to a slot since its RESET64, the slot holds the stream `B`. -/
theorem fed_holdsStream64 {s t : State} {h : Nat} {B : List Byte} {seed : Word64}
    (hs : s.slotAt h = some (.ready64 (freshAcc variant64 seed))) (hfed : Fed (.update64 h) h s B t) :
    ∃ c, t.slotAt h = some (.ready64 c) ∧ HoldsStream variant64 seed B c :=
  fed_holdsStream (V := variant64) (by decide) (by decide) effect_update64 hs hfed

/-- Settles O48: the properties of R48 are those of the stream the slot holds. -/
theorem readySlotInvariants : Obligations.ReadySlotInvariants := by
  refine ⟨fun h s0 s t B w0 rest0 hscript hword hstep hf hfed => ?_,
    fun h s0 s t B w0 rest0 hscript hword hstep hf hfed => ?_⟩
  · have hs := slotAt_of_step_reset32 hscript hword hstep hf
    obtain ⟨c, ht, hc⟩ := fed_holdsStream32 hs hfed
    rw [extractLsb'_low]
    exact ⟨c, _, ht, hs, holdsStream_properties hc (by decide) (by decide)⟩
  · have hs := slotAt_of_step_reset64 hscript hword hstep hf
    obtain ⟨c, ht, hc⟩ := fed_holdsStream64 hs hfed
    have hseed : s0.valOperand 64 = s0.val := BitVec.setWidth_eq _
    rw [hseed] at hs hc
    exact ⟨c, _, ht, hs, holdsStream_properties hc (by decide) (by decide)⟩

end Sys2Proof.Proofs

/-! PROOFS. 10_state.md: the frames of the commands, the registers, and the step at a CMD write. -/

namespace Sys2Proof.Proofs

open Sys2Proof Sys2Proof.Machine Sys2Proof.Safety Sys2Proof.Laws

/-- Settles O6. -/
theorem stepRunsTheDecodedCommand : Obligations.StepRunsTheDecodedCommand :=
  fun _ _ _ _ hf hs hi => step_command hf hs hi

/-- Settles O12: the table of R30, register by register. -/
theorem registersAndSlotsAfterReset : Obligations.RegistersAndSlotsAfterReset :=
  ⟨fun _ => rfl, rfl, rfl, rfl, rfl, rfl, by decide, rfl, rfl⟩

/-- Settles O13: CONFIG's fields are the digits of its value, and the parameters it is computed from never change. -/
theorem configRegisterIsConstant : Obligations.ConfigRegisterIsConstant := by
  refine ⟨fun s => ?_, fun s => ⟨nCtx_pos _, nCtx_le _⟩, fun s t h => ?_⟩
  · have hN := nCtx_le s.config
    refine ⟨BitVec.eq_of_toNat_eq ?_, BitVec.eq_of_toNat_eq ?_, ?_, BitVec.eq_of_toNat_eq ?_⟩
    · rw [readReg_config_field_toNat]
      split <;> simp <;> omega
    · rw [readReg_config_field_toNat]
      split <;> simp <;> omega
    · rw [readReg_config_field_toNat]
      split <;> omega
    · rw [readReg_config_field_toNat]
      split <;> simp <;> omega
  · simp only [State.readReg, step_config h, and_self]

/-- Settles O17, one frame lemma for each part of the state. -/
theorem commandFrames : Obligations.CommandFrames := by
  intro i s t he
  obtain ⟨hconfig, hcmd, hptr, hlen, hval, hscript, hposition, hseen⟩ := exec_registers he
  refine ⟨hconfig, hcmd, hptr, hlen, hval, hscript, hposition, hseen, exec_reserved he, exec_result he,
    fun hi => ?_, fun n a hn ha => ?_, fun h hi hd => ?_, fun h hi hs => ?_, fun h hi hr => ?_⟩
  · rcases exec_mem he with hm | ⟨x, hx, _⟩
    · exact hm
    · exact absurd hx (by simp [hi])
  · rcases exec_mem he with hm | ⟨x, _, hspan, hm⟩
    · rw [hm]
    · cases hn.symm.trans hspan
      rw [hm, read_writeBytes, if_neg ha]
  · exact slotAt_of_not_drives he hd fun hc => absurd hc (by simp [hi])
  · exact slotAt_of_not_drives he (not_drives_of_isCreate hi h) fun _ => .inl hs
  · exact slotAt_of_not_drives he (not_drives_of_isCreate hi h) fun _ => .inr hr

/-- Settles O50: only FREE ends a slot, and RESET and UPDATE, which rewrite it, are of its width. -/
theorem widthNeverChangesWhileAllocated : Obligations.WidthNeverChangesWhileAllocated := by
  intro i s t h slot slot' he hs ht
  cases exec_slotMove he h with
  | kept hk => cases (hs.symm.trans hk.symm).trans ht; rfl
  | created _ hfree => cases hs.symm.trans hfree
  | reset a b _ _ ha hb hwa hwb =>
    cases hs.symm.trans ha
    cases ht.symm.trans hb
    rw [hwa, hwb]
  | updated a b _ _ ha hb hwa hwb =>
    cases hs.symm.trans ha
    cases ht.symm.trans hb
    rw [hwa, hwb]
  | freed _ _ _ _ hfree => cases ht.symm.trans hfree

end Sys2Proof.Proofs

/-! PROOFS. 20_memory.md, two machines side by side: a relation between states that the engine's operations keep is kept
by every command (R73, R89). -/

namespace Sys2Proof.Proofs

open Sys2Proof Sys2Proof.Machine Sys2Proof.Safety Sys2Proof.Laws

/-! ## What a relation has to keep -/

/-- Where the first outcome is a next state, so is the second, and the relation holds between the two. -/
def Simulates (R : State → State → Prop) (o o' : Host.Outcome State Fault Refusal) : Prop :=
  ∀ t, o = .next t → ∃ t', o' = .next t' ∧ R t t'

/-- The two states give a command the same operands and the same host memory (R16, R105, R11, R87); the slots are left
to `SlotRelation`. -/
structure SameOperands (s s' : State) : Prop where
  ptr : s'.ptr = s.ptr
  len : s'.len = s.len
  val : s'.val = s.val
  mem : s'.mem = s.mem
  refused : s'.config.refused = s.config.refused
  sideEffects : s'.config.sideEffects = s.config.sideEffects

/-- Related states have the same operands and stay related when the same effect is had on both. -/
structure CommandRelation (R : State → State → Prop) : Prop where
  operands {s s' : State} : R s s' → SameOperands s s'
  raiseFault {s s' : State} (c : Code) : R s s' → R (s.raiseFault c) (s'.raiseFault c)
  complete {s s' : State} (c : Code) : R s s' → R (s.complete c) (s'.complete c)
  withResult {s s' : State} {w : Nat} (x : BitVec w) : R s s' → R (s.withResult x) (s'.withResult x)
  withMem {s s' : State} (m : Memory) : R s s' → R { s with mem := m } { s' with mem := m }

/-- Related states have the same slot `h` and stay related when the same is done to it. -/
structure SlotRelation (R : State → State → Prop) (h : Nat) : Prop where
  slotAt {s s' : State} : R s s' → s'.slotAt h = s.slotAt h
  withSlot {s s' : State} (x : Slot) : R s s' → R (s.withSlot h x) (s'.withSlot h x)
  freeSlot {s s' : State} : R s s' → R (s.freeSlot h) (s'.freeSlot h)

theorem simulates_next {R : State → State → Prop} {t t' : State} (h : R t t') :
    Simulates R (.next t) (.next t') := by
  rintro u ⟨⟩
  exact ⟨t', rfl, h⟩

theorem simulates_refused (R : State → State → Prop) (r : Refusal) (o : Host.Outcome State Fault Refusal) :
    Simulates R (.refused r) o := nofun

/-! ## The operands and the checks read nothing else -/

section Operands

variable {s s' : State} (hs : SameOperands s s')
include hs

theorem ptrOperand_congr : s'.ptrOperand = s.ptrOperand := congrArg BitVec.toNat hs.ptr

theorem lenOperand_congr : s'.lenOperand = s.lenOperand := congrArg BitVec.toNat hs.len

theorem valOperand_congr (w : Nat) : s'.valOperand w = s.valOperand w := congrArg (BitVec.setWidth w) hs.val

theorem spanFault_congr (k : AccessKind) (n : Nat) : s'.spanFault k n = s.spanFault k n := by
  unfold State.spanFault admits
  rw [ptrOperand_congr hs, hs.refused]

theorem spanHasSideEffect_congr (n : Nat) : s'.spanHasSideEffect n = s.spanHasSideEffect n := by
  unfold State.spanHasSideEffect readHasSideEffect
  rw [ptrOperand_congr hs, hs.sideEffects]

end Operands

theorem slotOperand_congr {s s' : State} {h : Nat} (hs : s'.slotAt h = s.slotAt h) (w : Width) :
    s'.slotOperand w h = s.slotOperand w h := by simp only [State.slotOperand, hs]

theorem accOperand_congr {s s' : State} {h w : Nat} (hs : s'.slotAt h = s.slotAt h) (V : Variant w) :
    s'.accOperand V h = s.accOperand V h := by simp only [State.accOperand, slotOperand_congr hs]

/-! ## The commands, one family at a time -/

section Commands

variable {R : State → State → Prop} (hR : CommandRelation R) {s s' : State} (hs : R s s')
include hR hs

/-- R281 checks 6 to 8: both machines read the same bytes, or both end in the same fault. -/
theorem readingSpan_simulates (n : Nat) {k k' : List Byte → State} (hk : ∀ B, R (k B) (k' B)) :
    Simulates R (s.readingSpan n k) (s'.readingSpan n k') := by
  have ho := hR.operands hs
  unfold State.readingSpan
  rw [spanFault_congr ho, spanHasSideEffect_congr ho, ptrOperand_congr ho, ho.mem]
  split
  · exact simulates_next (hR.raiseFault _ hs)
  · split
    · exact simulates_refused R _ _
    · exact simulates_next (hk _)

theorem writingSpan_simulates (n : Nat) {t t' : State} (ht : R t t') :
    Simulates R (s.writingSpan n t) (s'.writingSpan n t') := by
  unfold State.writingSpan
  rw [spanFault_congr (hR.operands hs)]
  split
  · exact simulates_next (hR.raiseFault _ hs)
  · exact simulates_next ht

theorem hashCommand_simulates {w : Nat} (V : Variant w) : Simulates R (hashCommand V s) (hashCommand V s') := by
  have ho := hR.operands hs
  unfold hashCommand
  rw [lenOperand_congr ho, valOperand_congr ho]
  exact readingSpan_simulates hR hs _ fun B => hR.complete _ (hR.withResult _ hs)

theorem tocanonCommand_simulates (w : Nat) : Simulates R (tocanonCommand w s) (tocanonCommand w s') := by
  have ho := hR.operands hs
  unfold tocanonCommand
  rw [ptrOperand_congr ho, valOperand_congr ho, ho.mem]
  exact writingSpan_simulates hR hs _ (hR.complete _ (hR.withMem _ hs))

theorem fromcanonCommand_simulates (w : Nat) : Simulates R (fromcanonCommand w s) (fromcanonCommand w s') := by
  unfold fromcanonCommand
  exact readingSpan_simulates hR hs _ fun C => hR.complete _ (hR.withResult _ hs)

/-- R203: CREATE reads which slot is the least FREE one. -/
theorem createCommand_simulates (w : Width) (hslot : ∀ h, SlotRelation R h)
    (hfree : leastFree s'.config s'.ctx = leastFree s.config s.ctx) :
    Simulates R (createCommand w s) (createCommand w s') := by
  unfold createCommand
  rw [hfree]
  split
  · exact simulates_next (hR.complete _ (hR.withResult _ hs))
  · exact simulates_next (hR.complete _ (hR.withResult _ ((hslot _).withSlot _ hs)))

variable {h : Nat} (hslot : SlotRelation R h)
include hslot

theorem resetCommand_simulates {w : Nat} (V : Variant w) :
    Simulates R (resetCommand V h s) (resetCommand V h s') := by
  unfold resetCommand
  rw [slotOperand_congr (hslot.slotAt hs), valOperand_congr (hR.operands hs)]
  split
  · exact simulates_next (hR.raiseFault _ hs)
  · exact simulates_next (hR.complete _ (hslot.withSlot _ hs))

theorem updateCommand_simulates {w : Nat} (V : Variant w) :
    Simulates R (updateCommand V h s) (updateCommand V h s') := by
  unfold updateCommand
  rw [accOperand_congr (hslot.slotAt hs), lenOperand_congr (hR.operands hs)]
  split
  · exact simulates_next (hR.raiseFault _ hs)
  · exact readingSpan_simulates hR hs _ fun B => hR.complete _ (hslot.withSlot _ hs)

theorem digestCommand_simulates {w : Nat} (V : Variant w) :
    Simulates R (digestCommand V h s) (digestCommand V h s') := by
  unfold digestCommand
  rw [accOperand_congr (hslot.slotAt hs)]
  split
  · exact simulates_next (hR.raiseFault _ hs)
  · exact simulates_next (hR.complete _ (hR.withResult _ hs))

theorem freeCommand_simulates (w : Width) : Simulates R (freeCommand w h s) (freeCommand w h s') := by
  unfold freeCommand
  rw [slotOperand_congr (hslot.slotAt hs)]
  split
  · exact simulates_next (hR.complete _ hs)
  · split
    · exact simulates_next (hR.raiseFault _ hs)
    · exact simulates_next (hR.complete _ (hslot.freeSlot hs))

end Commands

/-- Related states end every command in related states, where the relation covers the slot the command names; CREATE,
which may take any slot, needs every slot covered and the same slots FREE. -/
theorem exec_simulates {R : State → State → Prop} (hR : CommandRelation R) {i : Instr} {s s' : State} (hs : R s s')
    (hslot : ∀ h, i.handle? = some h → SlotRelation R h)
    (hcreate : isCreate i = true →
      (∀ h, SlotRelation R h) ∧ leastFree s'.config s'.ctx = leastFree s.config s.ctx) :
    Simulates R (exec i s) (exec i s') := by
  cases i with
  | hash32 => exact hashCommand_simulates hR hs variant32
  | hash64 => exact hashCommand_simulates hR hs variant64
  | create32 =>
    obtain ⟨hall, hfree⟩ := hcreate rfl
    exact createCommand_simulates hR hs .w32 hall hfree
  | create64 =>
    obtain ⟨hall, hfree⟩ := hcreate rfl
    exact createCommand_simulates hR hs .w64 hall hfree
  | reset32 h => exact resetCommand_simulates hR hs (hslot h rfl) variant32
  | reset64 h => exact resetCommand_simulates hR hs (hslot h rfl) variant64
  | update32 h => exact updateCommand_simulates hR hs (hslot h rfl) variant32
  | update64 h => exact updateCommand_simulates hR hs (hslot h rfl) variant64
  | digest32 h => exact digestCommand_simulates hR hs (hslot h rfl) variant32
  | digest64 h => exact digestCommand_simulates hR hs (hslot h rfl) variant64
  | free32 h => exact freeCommand_simulates hR hs (hslot h rfl) .w32
  | free64 h => exact freeCommand_simulates hR hs (hslot h rfl) .w64
  | tocanon32 => exact tocanonCommand_simulates hR hs 32
  | tocanon64 => exact tocanonCommand_simulates hR hs 64
  | fromcanon32 => exact fromcanonCommand_simulates hR hs 32
  | fromcanon64 => exact fromcanonCommand_simulates hR hs 64

end Sys2Proof.Proofs

/-! PROOFS. 20_memory.md: where a command has no next state (R87), and what its outcome does not depend on: the other
slots (R89), the host's byte order and the version number (R73, R38). -/

namespace Sys2Proof.Proofs

open Sys2Proof Sys2Proof.Machine Sys2Proof.Safety Sys2Proof.Laws

/-! ## Reads with side effects -/

theorem exists_of_spanHasSideEffect {s : State} {n : Nat} (h : s.spanHasSideEffect n = true) :
    ∃ j < n, readHasSideEffect s.config (s.ptr.toNat + j) = true := by
  simpa [State.spanHasSideEffect] using h

/-- Settles O16, by the cases of what a command answers. -/
theorem commandsStopOnlyAtSideEffects : Obligations.CommandsStopOnlyAtSideEffects := by
  intro i s
  rcases exec_cases i s with ⟨c, _, he⟩ | ⟨n, hspan, husable, heffect, he⟩ | ⟨u, c, _, he⟩
  · exact .inl ⟨_, he⟩
  · obtain ⟨j, hj, hread⟩ := exists_of_spanHasSideEffect heffect
    exact .inr ⟨he, n, j, hspan, hj, husable.admitted j hj, hread⟩
  · exact .inl ⟨_, he⟩

/-! ## The other slots -/

/-- The states differ in slots other than `h` at most. -/
def AgreeOnSlot (h : Nat) (s s' : State) : Prop := s' = { s with ctx := s'.ctx } ∧ s'.slotAt h = s.slotAt h

/-- The states differ in their context files only, which are these two. -/
def DifferInSlots (ctx ctx' : ContextFile) (s s' : State) : Prop := s' = { s with ctx := ctx' } ∧ s.ctx = ctx

theorem exists_ctx_of_agreeOnSlot {h : Nat} {s s' : State} (hs : AgreeOnSlot h s s') :
    ∃ ctx, s' = { s with ctx := ctx } := ⟨_, hs.1⟩

theorem agreeOnSlot_commandRelation (h : Nat) : CommandRelation (AgreeOnSlot h) where
  operands hs := by obtain ⟨ctx, rfl⟩ := exists_ctx_of_agreeOnSlot hs; exact ⟨rfl, rfl, rfl, rfl, rfl, rfl⟩
  raiseFault c hs := by obtain ⟨ctx, rfl⟩ := exists_ctx_of_agreeOnSlot hs; exact ⟨rfl, hs.2⟩
  complete c hs := by obtain ⟨ctx, rfl⟩ := exists_ctx_of_agreeOnSlot hs; exact ⟨rfl, hs.2⟩
  withResult x hs := by obtain ⟨ctx, rfl⟩ := exists_ctx_of_agreeOnSlot hs; exact ⟨rfl, hs.2⟩
  withMem m hs := by obtain ⟨ctx, rfl⟩ := exists_ctx_of_agreeOnSlot hs; exact ⟨rfl, hs.2⟩

/-- What a slot holds after it is written depends on the parameters only (R40). -/
theorem slotAt_withSlot_eq_ite (s : State) (h : Nat) (x : Slot) :
    (s.withSlot h x).slotAt h = if hasSlot s.config h then some x else none := by
  unfold State.slotAt
  rw [withSlot_ctx, withSlot_config, sparseFind_insert_self]

theorem agreeOnSlot_slotRelation (h : Nat) : SlotRelation (AgreeOnSlot h) h where
  slotAt hs := hs.2
  withSlot {s _} x hs := by
    obtain ⟨ctx, rfl⟩ := exists_ctx_of_agreeOnSlot hs
    exact ⟨rfl, (slotAt_withSlot_eq_ite _ h x).trans (slotAt_withSlot_eq_ite s h x).symm⟩
  freeSlot hs := by
    obtain ⟨ctx, rfl⟩ := exists_ctx_of_agreeOnSlot hs
    exact ⟨rfl, by rw [slotAt_freeSlot_self, slotAt_freeSlot_self]⟩

theorem differInSlots_commandRelation (ctx ctx' : ContextFile) : CommandRelation (DifferInSlots ctx ctx') where
  operands hs := by obtain ⟨rfl, _⟩ := hs; exact ⟨rfl, rfl, rfl, rfl, rfl, rfl⟩
  raiseFault c hs := by obtain ⟨rfl, hctx⟩ := hs; exact ⟨rfl, hctx⟩
  complete c hs := by obtain ⟨rfl, hctx⟩ := hs; exact ⟨rfl, hctx⟩
  withResult x hs := by obtain ⟨rfl, hctx⟩ := hs; exact ⟨rfl, hctx⟩
  withMem m hs := by obtain ⟨rfl, hctx⟩ := hs; exact ⟨rfl, hctx⟩

theorem isCreate_of_handle {i : Instr} {h : Nat} (hi : i.handle? = some h) : isCreate i = false := by
  by_contra hc
  cases i with
  | create32 => cases hi
  | create64 => cases hi
  | _ => exact hc rfl

/-- R89: a command that names a slot leaves every other slot. -/
theorem slotAt_of_handle_ne {i : Instr} {s t : State} {h k : Nat} (hi : i.handle? = some h) (hk : k ≠ h)
    (he : exec i s = .next t) : t.slotAt k = s.slotAt k := by
  refine slotAt_of_not_drives he (fun hd => ?_) fun hc => absurd hc (by simp [isCreate_of_handle hi])
  exact hk (Option.some.inj (hd.1.symm.trans hi))

/-- Settles O52: the two clauses are two relations that the commands keep. -/
theorem contextsDoNotInteract : Obligations.ContextsDoNotInteract := by
  refine ⟨fun i h s s' t hi hs hslot he => ?_, fun i s s' t hi hc hs he => ?_⟩
  · obtain ⟨t', he', ht⟩ := exec_simulates (agreeOnSlot_commandRelation h) ⟨hs, hslot⟩
      (fun k hk => Option.some.inj (hi.symm.trans hk) ▸ agreeOnSlot_slotRelation h)
      (fun hcreate => absurd hcreate (by simp [isCreate_of_handle hi])) t he
    exact ⟨t', he', ht.1, ht.2, fun k hk => ⟨slotAt_of_handle_ne hi hk he, slotAt_of_handle_ne hi hk he'⟩⟩
  · obtain ⟨t', he', ht, hctx⟩ := exec_simulates (differInSlots_commandRelation s.ctx s'.ctx) ⟨hs, rfl⟩
      (fun h hh => nomatch hi.symm.trans hh) (fun hcreate => absurd hcreate (by simp [hc])) t he
    exact ⟨ht ▸ he', hctx⟩

/-! ## The host's byte order and the version number -/

/-- The same block under other values of HOST_BIG_ENDIAN and VERSION_NUMBER (R11). -/
def withHostOrderAndVersion (big : Bool) (ver : Word32) (s : State) : State :=
  { s with config := { s.config with hostBigEndian := big, versionNumber := ver } }

/-- The second state is the first under these values of the two parameters. -/
def UnderHostOrderAndVersion (big : Bool) (ver : Word32) (s s' : State) : Prop :=
  s' = withHostOrderAndVersion big ver s

theorem underHostOrderAndVersion_commandRelation (big : Bool) (ver : Word32) :
    CommandRelation (UnderHostOrderAndVersion big ver) where
  operands hs := by obtain rfl := hs; exact ⟨rfl, rfl, rfl, rfl, rfl, rfl⟩
  raiseFault c hs := by obtain rfl := hs; rfl
  complete c hs := by obtain rfl := hs; rfl
  withResult x hs := by obtain rfl := hs; rfl
  withMem m hs := by obtain rfl := hs; rfl

/-- R40: which slots there are depends on `N_CTX` alone. -/
theorem underHostOrderAndVersion_slotRelation (big : Bool) (ver : Word32) (h : Nat) :
    SlotRelation (UnderHostOrderAndVersion big ver) h where
  slotAt hs := by obtain rfl := hs; rfl
  withSlot x hs := by obtain rfl := hs; rfl
  freeSlot hs := by obtain rfl := hs; rfl

/-- Settles O53: the parameters are related by one relation that all commands keep, and two registers show them. -/
theorem hostOrderAndVersionChangeNoResult : Obligations.HostOrderAndVersionChangeNoResult := by
  refine ⟨fun i s t big ver he => ?_, fun s r big ver hconfig hversion => ?_⟩
  · obtain ⟨t', he', rfl⟩ := exec_simulates (underHostOrderAndVersion_commandRelation big ver)
      (s' := withHostOrderAndVersion big ver s) rfl
      (fun h _ => underHostOrderAndVersion_slotRelation big ver h)
      (fun _ => ⟨underHostOrderAndVersion_slotRelation big ver, rfl⟩) t he
    exact he'
  · cases r with
    | config => exact absurd rfl hconfig
    | version => exact absurd rfl hversion
    | _ => rfl

end Sys2Proof.Proofs

/-! PROOFS. 30_encoding.md: decode and encode are inverse to each other (R106, R107), and which words are illegal (R108).
The decoder's legal and illegal answers are each said once, on the fields of the word. -/

namespace Sys2Proof.Proofs

open Sys2Proof Sys2Proof.Laws

/-! ## The fields of commands and of words -/

/-- R104: the H field of a command is 0 when it is handle-free and its handle otherwise, and it has eight bits. -/
theorem wellFormed_iff (i : Instr) : i.wellFormed = true ↔ i.handle?.getD 0 < 256 := by
  cases i <;> simp [Instr.wellFormed, handleFits, Instr.handle?]

theorem getLsbD_eq_false_of_fieldRsv1 {word : Word32} (hr : fieldRsv1 word = 0) {i : Nat} (h16 : 16 ≤ i)
    (h32 : i < 32) : word.getLsbD i = false := by
  have hbit : i - 16 < 16 := by omega
  simpa [fieldRsv1, hbit, Nat.add_sub_cancel' h16] using congrArg (·.getLsbD (i - 16)) hr

theorem getLsbD_eq_false_of_fieldRsv0 {word : Word32} (hr : fieldRsv0 word = 0) {i : Nat} (h5 : 5 ≤ i)
    (h8 : i < 8) : word.getLsbD i = false := by
  have hbit : i - 5 < 3 := by omega
  simpa [fieldRsv0, hbit, Nat.add_sub_cancel' h5] using congrArg (·.getLsbD (i - 5)) hr

/-- R100: a word whose reserved bits are 0 is made of its other three fields. -/
theorem commandWord_fields {word : Word32} (hr1 : fieldRsv1 word = 0) (hr0 : fieldRsv0 word = 0) :
    commandWord (fieldH word) (fieldW word) (fieldOp word) = word := by
  apply BitVec.eq_of_getLsbD_eq; intro i hi
  rcases lt_or_ge i 5 with h5 | h5
  · interval_cases i <;> simp [commandWord, fieldW, fieldOp]
  rcases lt_or_ge i 8 with h8 | h8
  · rw [getLsbD_eq_false_of_fieldRsv0 hr0 h5 h8]
    interval_cases i <;> simp [commandWord]
  rcases lt_or_ge i 16 with h16 | h16
  · interval_cases i <;> simp [commandWord, fieldH]
  · rw [getLsbD_eq_false_of_fieldRsv1 hr1 h16 hi]
    interval_cases i <;> simp [commandWord]

/-! ## The decoder -/

/-- R107: the distinction by OP in the variant that W selects. -/
def decodeVariant : Width → Nat → Nat → Except Illegal Instr
  | .w32 => decode32
  | .w64 => decode64

/-- R107: the decoder as a check of the reserved bits and then one distinction by OP. -/
theorem decode_of_fieldW {word : Word32} {w : Width} (hr1 : fieldRsv1 word = 0) (hr0 : fieldRsv0 word = 0)
    (hw : fieldW word = widthBit w) :
    decode word = decodeVariant w (fieldOp word).toNat (fieldH word).toNat := by
  unfold decode
  cases w <;> simp [hr1, hr0, hw, widthBit, decodeVariant]

theorem decode_of_reserved {word : Word32} (hr : fieldRsv1 word ≠ 0 ∨ fieldRsv0 word ≠ 0) :
    decode word = .error .reservedBits := if_pos hr

/-- R102: every value of W selects a variant. -/
theorem exists_widthBit (b : BitVec 1) : ∃ w, b = widthBit w := by
  rcases BitVec.eq_zero_or_eq_one b with rfl | rfl
  · exact ⟨.w32, rfl⟩
  · exact ⟨.w64, rfl⟩

theorem handleFree_eq_ok_iff {h : Nat} {i j : Instr} : handleFree h i = .ok j ↔ h = 0 ∧ i = j := by
  unfold handleFree
  split <;> simp [*]

theorem handleFree_eq_error_iff {h : Nat} {i : Instr} : (∃ e, handleFree h i = .error e) ↔ h ≠ 0 := by
  unfold handleFree
  split <;> simp [*]

theorem decodeVariant_fields (i : Instr) :
    decodeVariant i.width i.opField.toNat (i.handle?.getD 0) = .ok i := by
  cases i <;> rfl

theorem fields_of_decodeVariant {w : Width} {op h : Nat} {i : Instr} (hd : decodeVariant w op h = .ok i) :
    i.width = w ∧ i.opField.toNat = op ∧ i.handle?.getD 0 = h := by
  cases w
  all_goals
    simp only [decodeVariant, decode32, decode64] at hd
    split at hd
    case h_1 | h_2 | h_7 | h_8 =>
      obtain ⟨rfl, rfl⟩ := handleFree_eq_ok_iff.1 hd
      exact ⟨rfl, rfl, rfl⟩
    case h_3 | h_4 | h_5 | h_6 =>
      cases hd
      exact ⟨rfl, rfl, rfl⟩
    case h_9 => cases hd

/-- R108, of the OP and H fields. -/
theorem decodeVariant_error_iff (w : Width) (op h : Nat) :
    (∃ e, decodeVariant w op h = .error e) ↔
      op = 0 ∨ 9 ≤ op ∨ ((op = 1 ∨ op = 2 ∨ op = 7 ∨ op = 8) ∧ h ≠ 0) := by
  cases w
  all_goals
    simp only [decodeVariant, decode32, decode64]
    split
    case h_1 | h_2 | h_7 | h_8 => simp [handleFree_eq_error_iff]
    case h_3 | h_4 | h_5 | h_6 => simp
    case h_9 => exact iff_of_true ⟨_, rfl⟩ (by grind)

/-- R107: a word decodes to the command that has its fields, when its reserved bits are 0 and there is one. -/
theorem decode_eq_ok_iff {word : Word32} {i : Instr} :
    decode word = .ok i ↔
      (fieldRsv1 word = 0 ∧ fieldRsv0 word = 0) ∧
      fieldW word = widthBit i.width ∧ fieldOp word = i.opField ∧ (fieldH word).toNat = i.handle?.getD 0 := by
  constructor
  · intro hd
    by_cases hr : fieldRsv1 word ≠ 0 ∨ fieldRsv0 word ≠ 0
    · cases (decode_of_reserved hr).symm.trans hd
    · obtain ⟨hr1, hr0⟩ := not_or.1 hr
      rw [not_not] at hr1 hr0
      obtain ⟨w, hw⟩ := exists_widthBit (fieldW word)
      rw [decode_of_fieldW hr1 hr0 hw] at hd
      obtain ⟨rfl, hop, hh⟩ := fields_of_decodeVariant hd
      exact ⟨⟨hr1, hr0⟩, hw, (BitVec.eq_of_toNat_eq hop).symm, hh.symm⟩
  · rintro ⟨⟨hr1, hr0⟩, hw, hop, hh⟩
    rw [decode_of_fieldW hr1 hr0 hw, hop, hh, decodeVariant_fields]

/-- R103, R108: what the decoder refuses, by the fields of the word. -/
theorem decode_error_iff (word : Word32) :
    (∃ e, decode word = .error e) ↔
      fieldRsv1 word ≠ 0 ∨ fieldRsv0 word ≠ 0 ∨
      fieldOp word = 0 ∨ 9 ≤ (fieldOp word).toNat ∨
      ((fieldOp word = 1 ∨ fieldOp word = 2 ∨ fieldOp word = 7 ∨ fieldOp word = 8) ∧ fieldH word ≠ 0) := by
  rw [← or_assoc]
  by_cases hr : fieldRsv1 word ≠ 0 ∨ fieldRsv0 word ≠ 0
  · exact iff_of_true ⟨_, decode_of_reserved hr⟩ (.inl hr)
  · obtain ⟨hr1, hr0⟩ := not_or.1 hr
    rw [not_not] at hr1 hr0
    obtain ⟨w, hw⟩ := exists_widthBit (fieldW word)
    rw [decode_of_fieldW hr1 hr0 hw, decodeVariant_error_iff, or_iff_right hr]
    simp [BitVec.toNat_eq]

/-! ## The obligations -/

/-- Settles O2: the encoded word has the command's fields, and a handle of eight bits is kept whole. -/
theorem decodeOfEncodeIsIdentity : Obligations.DecodeOfEncodeIsIdentity := by
  intro i hi
  refine decode_eq_ok_iff.2 ⟨⟨fieldRsv1_commandWord _ _ _, fieldRsv0_commandWord _ _ _⟩,
    fieldW_commandWord _ _ _, fieldOp_commandWord _ _ _, ?_⟩
  have hh : i.handle?.getD 0 < 2 ^ 8 := (wellFormed_iff i).1 hi
  rw [encode, fieldH_commandWord, BitVec.toNat_ofNat, Nat.mod_eq_of_lt hh]

/-- Settles O3: a legal word has the fields of its command, its handle among them, and 0 in the reserved ones. -/
theorem encodeOfDecodeIsIdentity : Obligations.EncodeOfDecodeIsIdentity := by
  intro word i hd
  obtain ⟨⟨hr1, hr0⟩, hw, hop, hh⟩ := decode_eq_ok_iff.1 hd
  refine ⟨(wellFormed_iff i).2 (hh ▸ (fieldH word).isLt), ?_⟩
  calc encode i = commandWord (fieldH word) (fieldW word) (fieldOp word) := by
        rw [encode, ← hh, BitVec.ofNat_toNat, BitVec.setWidth_eq, hw, hop]
    _ = word := commandWord_fields hr1 hr0

/-- Settles O4: the fields are the slices that R108 speaks of, and the word of all zeros has OP 0. -/
theorem illegalWordsAreExactlyR108 : Obligations.IllegalWordsAreExactlyR108 :=
  ⟨decode_error_iff, .reservedOp, rfl⟩

/-- Settles O1: each of the seven words of R112 is evaluated. -/
theorem specExampleWordsDecode : Obligations.SpecExampleWordsDecode := by
  unfold Obligations.SpecExampleWordsDecode
  decide

end Sys2Proof.Proofs

/-! PROOFS. 40_mixing_primitives.md: the word reader and `bswap` (R150 to R152). Both put eight-bit pieces side by side,
so both come from one fact on such words; and a word of whole bytes is determined by them. -/

namespace Sys2Proof.Proofs

open Sys2Proof Sys2Proof.Machine Sys2Proof.Laws

/-! ## Words put together from bytes -/

/-- A byte that overlaps none of the others is found again where it was put. -/
theorem extractLsb'_orAll_bytes {w n k : Nat} (b : Nat → Byte) (place : Nat → Nat) (hk : k < n)
    (hfit : place k + 8 ≤ w) (hapart : ∀ j < n, j ≠ k → place j + 8 ≤ place k ∨ place k + 8 ≤ place j) :
    (orAll ((List.range n).map fun j => (b j).setWidth w <<< place j)).extractLsb' (place k) 8 = b k := by
  apply BitVec.eq_of_getLsbD_eq; intro i hi
  have hpiece (j : Nat) : ((b j).setWidth w <<< place j).getLsbD (place k + i) =
      (decide (place j ≤ place k + i) && (b j).getLsbD (place k + i - place j)) := by
    have hbit : place k + i < w := by omega
    have hsub : place k + i - place j < w := by omega
    simp only [BitVec.getLsbD_shiftLeft, BitVec.getLsbD_setWidth, hbit, hsub, decide_true, Bool.true_and,
      ← decide_not, not_lt]
  have hother (j : Nat) (hj : j < n) (hne : j ≠ k) :
      ((b j).setWidth w <<< place j).getLsbD (place k + i) = false := by
    rw [hpiece]
    rcases hapart j hj hne with hbelow | habove
    · rw [BitVec.getLsbD_of_ge _ _ (by omega), Bool.and_false]
    · rw [decide_eq_false (by omega), Bool.false_and]
  have hself : ((b k).setWidth w <<< place k).getLsbD (place k + i) = (b k).getLsbD i := by
    simp [hpiece]
  rw [BitVec.getLsbD_extractLsb', getLsbD_orAll, List.any_map, decide_eq_true hi, Bool.true_and, ← hself,
    Bool.eq_iff_iff, List.any_eq_true]
  constructor
  · rintro ⟨j, hj, hbit⟩
    by_cases hjk : j = k
    · exact hjk ▸ hbit
    · exact absurd hbit (by simp [hother j (List.mem_range.1 hj) hjk])
  · exact fun hbit => ⟨k, List.mem_range.2 hk, hbit⟩

/-- Words of whole bytes are equal when their bytes are. -/
theorem eq_of_extractLsb'_bytes {w : Nat} (hw : 8 ∣ w) {x y : BitVec w}
    (h : ∀ k < w / 8, x.extractLsb' (8 * k) 8 = y.extractLsb' (8 * k) 8) : x = y := by
  apply BitVec.eq_of_getLsbD_eq; intro i hi
  have hbit := congrArg (·.getLsbD (i % 8)) (h (i / 8) (Nat.div_lt_div_of_lt_of_dvd hw hi))
  simpa [Nat.mod_lt, Nat.div_add_mod] using hbit

/-! ## The word reader and `bswap` at every width -/

/-- R150: byte k of the word is the byte k places after the offset. -/
theorem extractLsb'_readLE (w : Nat) (S : List Byte) (o : Nat) {k : Nat} (hk : k < w / 8) :
    (readLE w S o).extractLsb' (8 * k) 8 = byteAt S (o + k) :=
  extractLsb'_orAll_bytes (fun k => byteAt S (o + k)) (8 * ·) hk (by omega) (by omega)

/-- R152. -/
theorem extractLsb'_bswap {w : Nat} (x : BitVec w) {k : Nat} (hk : k < w / 8) :
    (bswap w x).extractLsb' (8 * k) 8 = x.extractLsb' (8 * (w / 8 - 1 - k)) 8 :=
  extractLsb'_orAll_bytes (fun k => x.extractLsb' (8 * (w / 8 - 1 - k)) 8) (8 * ·) hk (by omega) (by omega)

/-- R152: reversing the bytes twice puts each back in its place. -/
theorem bswap_bswap {w : Nat} (hw : 8 ∣ w) (x : BitVec w) : bswap w (bswap w x) = x := by
  refine eq_of_extractLsb'_bytes hw fun k hk => ?_
  have hback : w / 8 - 1 - (w / 8 - 1 - k) = k := by omega
  rw [extractLsb'_bswap _ hk, extractLsb'_bswap _ (by omega), hback]

/-- R151: a big-endian host's own order and the swap of the endian layer cancel. -/
theorem readWord_eq_readLE (big : Bool) {w : Nat} (hw : 8 ∣ w) (S : List Byte) (o : Nat) :
    readWord big w S o = readLE w S o := by
  cases big with
  | false => rfl
  | true => exact bswap_bswap hw (readLE w S o)

/-! ## The obligations -/

/-- Settles O36: inside S the byte that the reader finds is the one S holds there. -/
theorem wordReaderIsLittleEndian : Obligations.WordReaderIsLittleEndian := by
  constructor
  · intro S o k hk ho
    exact (extractLsb'_readLE 32 S o hk).trans (byteAt_eq_getElem S (o + k) (by omega))
  · intro S o k hk ho
    exact (extractLsb'_readLE 64 S o hk).trans (byteAt_eq_getElem S (o + k) (by omega))

/-- Settles O37: the rule of every width, at 32 and 64 bits. -/
theorem bswapReversesBytes : Obligations.BswapReversesBytes :=
  ⟨fun x _ hk => extractLsb'_bswap x hk, fun x _ hk => extractLsb'_bswap x hk⟩

/-- Settles O38: 32 and 64 bits are whole bytes. -/
theorem wordReaderIgnoresHostOrder : Obligations.WordReaderIgnoresHostOrder := by
  have h32 : 8 ∣ 32 := by decide
  have h64 : 8 ∣ 64 := by decide
  exact ⟨bswap_bswap h32, bswap_bswap h64, fun big S o =>
    ⟨readWord_eq_readLE big h32 S o, readWord_eq_readLE big h64 S o⟩⟩

end Sys2Proof.Proofs

/-! PROOFS. 41_oneshot.md: the two paths of `Hash_W` (R180, R181), what they come to at the boundaries (R182, R183), and
the commands HASH32 and HASH64 (R184 to R186). -/

namespace Sys2Proof.Proofs

open Sys2Proof Sys2Proof.Machine Sys2Proof.Safety Sys2Proof.Laws

/-! ## Finalize (R147) -/

/-- R147: the length is added modulo 2^W. -/
theorem finalize_mod_length {w : Nat} (V : Variant w) (h : BitVec w) (n : Nat) (T : List Byte) :
    finalize V h (n % 2 ^ w) T = finalize V h n T := by
  have hlen : BitVec.ofNat w (n % 2 ^ w) = BitVec.ofNat w n := by
    apply BitVec.eq_of_toNat_eq
    simp only [BitVec.toNat_ofNat, Nat.mod_mod]
  rw [finalize, finalize, hlen]

/-- No bytes: nothing is absorbed and a length of zero adds nothing. -/
theorem finalize_zero_nil {w : Nat} {V : Variant w} {h : BitVec w} (htail : V.tail h [] = h) :
    finalize V h 0 [] = avalanche V.numbers h := by
  have hadd : h + BitVec.ofNat w 0 = h := BitVec.add_zero h
  rw [finalize, hadd, htail]

/-! ## The two paths of `Hash_W` (R180, R181) -/

theorem afterBlocks_of_length_eq_mul {size k : Nat} {B : List Byte} (h : B.length = k * size) :
    afterBlocks size B = [] := by
  apply List.eq_nil_of_length_eq_zero
  rw [afterBlocks_length, h, Nat.mul_mod_left]

section Paths

variable {w : Nat} {V : Variant w} {B : List Byte}

/-- The small-input path. -/
theorem hashBytes_of_short (h : B.length < V.sb) (seed : BitVec w) :
    hashBytes V B seed = finalize V (seed + V.numbers.prime5) B.length B := by
  rw [hashBytes, afterBlocks_short h, start, if_neg (by simpa using h)]

/-- The lane path. -/
theorem hashBytes_of_large (h : V.sb ≤ B.length) (seed : BitVec w) :
    hashBytes V B seed =
      finalize V (V.fold (mixAll V (laneInit V.numbers seed) B)) B.length (afterBlocks V.sb B) := by
  rw [hashBytes, start, if_pos (by simpa using h)]

/-- Whole superblocks take the lane path and leave no tail. -/
theorem hashBytes_of_superblocks {k : Nat} (hk : 1 ≤ k) (h : B.length = k * V.sb) (seed : BitVec w) :
    hashBytes V B seed = finalize V (V.fold (mixAll V (laneInit V.numbers seed) B)) B.length [] := by
  have hlarge : V.sb ≤ B.length := h ▸ Nat.le_mul_of_pos_left V.sb hk
  rw [hashBytes_of_large hlarge, afterBlocks_of_length_eq_mul h]

/-- One superblock is one stripe. -/
theorem hashBytes_of_one_superblock (hV : 0 < V.sb) (h : B.length = V.sb) (seed : BitVec w) :
    hashBytes V B seed = finalize V (V.fold (stripe V.numbers (laneInit V.numbers seed) B)) V.sb [] := by
  rw [hashBytes_of_superblocks (Nat.le_refl 1) (by rw [h, Nat.one_mul]), mixAll_one hV _ h, h]

/-- R230: the digest of an accumulator is the hash of the stream it holds, if the length has not wrapped. -/
theorem digest_of_holdsStream {seed : BitVec w} {c : Accumulator w} (hc : HoldsStream V seed B c)
    (hB : B.length < 2 ^ 64) : digest V c = hashBytes V B seed := by
  have hlen : c.totalLen.toNat = B.length := by
    rw [hc.totalLen, BitVec.toNat_ofNat, Nat.mod_eq_of_lt hB]
  have hstart : start V c.large c.lanes c.lanes.v3 =
      start V (decide (V.sb ≤ B.length)) (mixAll V (laneInit V.numbers seed) B) seed := by
    rw [← hc.lanes, ← hc.large]
    cases hl : c.large with
    | true => rfl
    | false => rw [holdsStream_lanes_of_not_large hc hl, laneInit_v3]
  rw [digest, hstart, hlen, hc.buffer, hashBytes]

/-- The digest right after RESET is the hash of no bytes. -/
theorem digest_freshAcc (hV : 0 < V.sb) (seed : BitVec w) : digest V (freshAcc V seed) = hashBytes V [] seed :=
  digest_of_holdsStream (holdsStream_freshAcc hV seed) (Nat.two_pow_pos 64)

/-- No bytes take the small-input path, with nothing to absorb. -/
theorem hashBytes_nil (hV : 0 < V.sb) (htail : ∀ h, V.tail h [] = h) (seed : BitVec w) :
    hashBytes V [] seed = avalanche V.numbers (seed + V.numbers.prime5) := by
  have hshort : ([] : List Byte).length < V.sb := hV
  rw [hashBytes_of_short hshort, List.length_nil, finalize_zero_nil (htail _)]

end Paths

/-! ## The two variants -/

theorem variant32_sb_pos : 0 < variant32.sb := by decide

theorem variant64_sb_pos : 0 < variant64.sb := by decide

theorem tail32_nil (h : Word32) : tail32 h [] = h := rfl

theorem tail64_nil (h : Word64) : tail64 h [] = h := rfl

/-! ## The commands (R184, R185) -/

/-- R16: the same bytes at two places give the same sequence. -/
theorem bytes_eq_of_read_eq {m m' : Memory} {p p' n : Nat} (h : ∀ k < n, m'.read (p' + k) = m.read (p + k)) :
    m'.bytes p' n = m.bytes p n :=
  List.map_congr_left fun k hk => h k (List.mem_range.1 hk)

theorem input_eq_of_read_eq {s s' : State} (hlen : s'.len = s.len)
    (h : ∀ k < s.len.toNat, s'.mem.read (s'.ptr.toNat + k) = s.mem.read (s.ptr.toNat + k)) : s'.input = s.input := by
  rw [State.input, State.input, State.lenOperand, State.lenOperand, hlen]
  exact bytes_eq_of_read_eq h

theorem hashCommand_of_readable {w : Nat} (V : Variant w) {s : State} (h : SpanReadable s s.len.toNat) :
    hashCommand V s = .next ((s.withResult (hashBytes V s.input (s.valOperand w))).complete .ok) :=
  readingSpan_of_readable h _

/-- What a HASH that did not fault has done. -/
theorem hashCommand_completed {w : Nat} {V : Variant w} {s t : State} (h : hashCommand V s = .next t)
    (hf : t.faulted = false) : t = (s.withResult (hashBytes V s.input (s.valOperand w))).complete .ok := by
  rcases hashCommand_cases V s with ⟨c, _, hfault⟩ | ⟨_, hrefused⟩ | ⟨_, hdone⟩
  · obtain rfl : t = s.raiseFault c := by simpa [h] using hfault
    rw [faulted_raiseFault] at hf
    contradiction
  · rw [h] at hrefused
    contradiction
  · simpa [h] using hdone

/-- R186, for either variant: two HASH commands that complete. -/
theorem hashCommand_pure {w : Nat} {V : Variant w} {s s' t t' : State} (h : hashCommand V s = .next t)
    (hf : t.faulted = false) (h' : hashCommand V s' = .next t') (hf' : t'.faulted = false) :
    t = { s with result := t.result, status := withCode s.status .ok } ∧
    (s'.input = s.input → s'.valOperand w = s.valOperand w → t'.result = t.result) := by
  have ht := hashCommand_completed h hf
  have ht' := hashCommand_completed h' hf'
  constructor
  · rw [ht, complete_result, withResult_result, withResult_complete_eq]
  · intro hinput hseed
    rw [ht, ht', complete_result, complete_result, withResult_result, withResult_result, hinput, hseed]

theorem valOperand_32 (s : State) : s.valOperand 32 = s.val.extractLsb' 0 32 := (extractLsb'_low s.val).symm

theorem valOperand_64 (s : State) : s.valOperand 64 = s.val := BitVec.setWidth_eq s.val

/-! ## The obligations -/

/-- Settles O35: the rule of either variant, with the bytes and the seed read off the two states. -/
theorem hashDependsOnItsBytesAndSeedOnly : Obligations.HashDependsOnItsBytesAndSeedOnly := by
  intro i s s' t t' hi he hf he' hf'
  rcases hi with rfl | rfl
  · obtain ⟨hframe, hpure⟩ := hashCommand_pure (V := variant32) he hf he' hf'
    refine ⟨hframe, fun hlen hread => ⟨fun _ hseed => ?_, nofun⟩⟩
    exact hpure (input_eq_of_read_eq hlen hread) (by rw [valOperand_32, valOperand_32, hseed])
  · obtain ⟨hframe, hpure⟩ := hashCommand_pure (V := variant64) he hf he' hf'
    refine ⟨hframe, fun hlen hread => ⟨nofun, fun _ hseed => ?_⟩⟩
    exact hpure (input_eq_of_read_eq hlen hread) (by rw [valOperand_64, valOperand_64, hseed])

/-- Settles O42: each clause is one of the two paths, at the variant's superblock size. -/
theorem hashAtTheBoundaries : Obligations.HashAtTheBoundaries := by
  refine ⟨fun B seed h => ?_, fun B seed h => ?_, fun B seed h => ?_, fun B seed h => ?_, fun B seed k hk h => ?_,
    fun B seed k hk h => ?_, fun B seed h => ?_, fun B k => ?_, fun h n T => ?_⟩
  · exact hashBytes_of_one_superblock variant32_sb_pos h seed
  · exact hashBytes_of_one_superblock variant64_sb_pos h seed
  · have hshort : B.length < variant32.sb := by rw [h]; decide
    rw [← h]
    exact hashBytes_of_short hshort seed
  · have hshort : B.length < variant64.sb := by rw [h]; decide
    rw [← h]
    exact hashBytes_of_short hshort seed
  · exact hashBytes_of_superblocks (V := variant32) hk h seed
  · exact hashBytes_of_superblocks (V := variant64) hk h seed
  · have hlarge : variant32.sb ≤ B.length := Nat.le_trans (by decide) h
    rw [finalize_mod_length]
    exact hashBytes_of_large hlarge seed
  · exact ⟨afterBlocks_of_length_eq_mul, afterBlocks_of_length_eq_mul⟩
  · exact (finalize_mod_length variant32 h n T).symm

/-- Settles O26: a readable span is what HASH completes on; the record is written out field by field. -/
theorem hashCompletes : Obligations.HashCompletes := by
  intro s hs
  constructor
  · rw [exec_hash32, hashCommand_of_readable variant32 hs, withResult_complete_eq, valOperand_32]
    rfl
  · rw [exec_hash64, hashCommand_of_readable variant64 hs, withResult_complete_eq, valOperand_64, BitVec.setWidth_eq]
    rfl

/-- Settles O41: the empty input one-shot, and as the stream of a fresh accumulator. -/
theorem emptyInputIsAFunctionOfTheSeed : Obligations.EmptyInputIsAFunctionOfTheSeed :=
  ⟨fun seed => ⟨hashBytes_nil variant32_sb_pos tail32_nil seed, digest_freshAcc variant32_sb_pos seed⟩,
    fun seed => ⟨hashBytes_nil variant64_sb_pos tail64_nil seed, digest_freshAcc variant64_sb_pos seed⟩⟩

end Sys2Proof.Proofs

/-! PROOFS. 42_streaming.md, `Update_W` on an accumulator (R220 to R229): the boundary of one superblock, the split of
an input, and the empty input. -/

namespace Sys2Proof.Proofs

open Sys2Proof Sys2Proof.Machine Sys2Proof.Safety Sys2Proof.Laws

section Update

variable {w : Nat} {V : Variant w} {c : Accumulator w}

/-! ## Below and at one superblock (R221) -/

theorem pending_length (hm : c.mem.length = V.sb) (hs : c.memsize < V.sb) (B : List Byte) :
    (c.mem.take c.memsize ++ B).length = c.memsize + B.length := by
  rw [List.length_append, List.length_take, Nat.min_eq_left (by omega)]

/-- R221: the pending bytes and the input together fall short of a superblock, so no stripe is mixed. -/
theorem update_below_superblock {B : List Byte} (hm : c.mem.length = V.sb) (h : c.memsize + B.length < V.sb) :
    (update V c B).lanes = c.lanes ∧ (update V c B).memsize = c.memsize + B.length ∧
      (update V c B).mem.take (c.memsize + B.length) = c.mem.take c.memsize ++ B := by
  have hs : c.memsize < V.sb := by omega
  have hpending : (c.mem.take c.memsize ++ B).length < V.sb := by rwa [pending_length hm hs]
  obtain ⟨hlanes, hsize, _, hbuf⟩ := update_buffer_and_lanes (Nat.zero_lt_of_lt h) B hm hs
  rw [Nat.mod_eq_of_lt h] at hsize
  rw [mixAll_short _ hpending] at hlanes
  rw [hsize, afterBlocks_short hpending] at hbuf
  exact ⟨hlanes, hsize, hbuf⟩

/-- R221: at exactly one superblock the pending bytes and the input are one stripe, and nothing is left. -/
theorem update_at_superblock {B : List Byte} (hm : c.mem.length = V.sb) (hs : c.memsize < V.sb)
    (h : c.memsize + B.length = V.sb) :
    (update V c B).lanes = stripe V.numbers c.lanes (c.mem.take c.memsize ++ B) ∧ (update V c B).memsize = 0 := by
  have hV : 0 < V.sb := Nat.zero_lt_of_lt hs
  have hpending : (c.mem.take c.memsize ++ B).length = V.sb := by rw [pending_length hm hs, h]
  obtain ⟨hlanes, hsize, _⟩ := update_buffer_and_lanes hV B hm hs
  rw [mixAll_one hV _ hpending] at hlanes
  rw [h, Nat.mod_self] at hsize
  exact ⟨hlanes, hsize⟩

/-! ## The split of an input (R228) -/

/-- Two accumulators agree in every field a rule reads: the buffer counts up to `memsize` only (R46, U13). -/
def SameObservable (d e : Accumulator w) : Prop :=
  d.lanes = e.lanes ∧ d.totalLen = e.totalLen ∧ d.large = e.large ∧ d.memsize = e.memsize ∧
    d.mem.take d.memsize = e.mem.take e.memsize

/-- The second of two updates tests `large` on a length that may have wrapped; then the first one has set it. -/
theorem update_update_large (hsb : V.sb ≤ 2 ^ 64) (X Y : List Byte) :
    (update V (update V c X) Y).large = (update V c (X ++ Y)).large := by
  rw [update_large, update_large, update_large, update_totalLen, List.length_append, Bool.or_assoc, ← Bool.decide_or]
  congr 1
  refine decide_eq_decide.2 ?_
  rw [BitVec.toNat_add, BitVec.toNat_ofNat, Nat.add_mod_mod]
  rcases Nat.lt_or_ge (c.totalLen.toNat + X.length) (2 ^ 64) with hwrap | hwrap
  · rw [Nat.mod_eq_of_lt hwrap]; omega
  · omega

theorem update_update (hV : 0 < V.sb) (hsb : V.sb ≤ 2 ^ 64) (hm : c.mem.length = V.sb) (hs : c.memsize < V.sb)
    (X Y : List Byte) : SameObservable (update V (update V c X) Y) (update V c (X ++ Y)) := by
  obtain ⟨hlanesX, hsizeX, hmemX, hbufX⟩ := update_buffer_and_lanes hV X hm hs
  obtain ⟨hlanesXY, hsizeXY, _, hbufXY⟩ := update_buffer_and_lanes hV (X ++ Y) hm hs
  have hsX : (update V c X).memsize < V.sb := hsizeX ▸ Nat.mod_lt _ hV
  obtain ⟨hlanesY, hsizeY, _, hbufY⟩ := update_buffer_and_lanes hV Y hmemX hsX
  refine ⟨?_, ?_, update_update_large hsb X Y, ?_, ?_⟩
  · rw [hlanesY, hlanesXY, hlanesX, hbufX, ← mixAll_resume hV, List.append_assoc]
  · rw [update_totalLen, update_totalLen, update_totalLen, List.length_append, BitVec.ofNat_add, BitVec.add_assoc]
  · rw [hsizeY, hsizeXY, hsizeX, Nat.mod_add_mod, List.length_append, Nat.add_assoc]
  · rw [hbufY, hbufXY, hbufX, afterBlocks_resume, List.append_assoc]

/-! ## The empty input (R229) -/

theorem splice_nil (buf : List Byte) (o : Nat) : splice buf o [] = buf := by
  rw [splice, List.append_nil, List.length_nil, Nat.add_zero, List.take_append_drop]

/-- No bytes leave the accumulator of a stream as it is: `large` already says what the test on its length says. -/
theorem update_nil (hV : 0 < V.sb) {seed : BitVec w} {X : List Byte} (hc : HoldsStream V seed X c) :
    update V c [] = c := by
  have hshort : c.memsize + ([] : List Byte).length < V.sb := holdsStream_memsize_lt hc hV
  have hlarge : (c.large || decide (V.sb ≤ c.totalLen.toNat)) = c.large := by
    have hlen : c.totalLen.toNat ≤ X.length := by
      rw [hc.totalLen, BitVec.toNat_ofNat]
      exact Nat.mod_le _ _
    rw [hc.large, ← Bool.decide_or]
    exact decide_eq_decide.2 ⟨fun h => h.elim id (Nat.le_trans · hlen), .inl⟩
  rw [update_of_short hshort, appendShort, noteLength, splice_nil, List.length_nil, Nat.add_zero, Nat.add_zero,
    hlarge, BitVec.add_zero]

end Update

/-! ## The obligations on the engine -/

/-- Settles O43: the rule on either side of the boundary, at the two superblock sizes. -/
theorem shortUpdateOnlyAppends : Obligations.ShortUpdateOnlyAppends :=
  ⟨fun _ _ hm h => update_below_superblock (V := variant32) hm h,
    fun _ _ hm h => update_below_superblock (V := variant64) hm h,
    fun _ _ hm hs h => update_at_superblock (V := variant32) hm hs h,
    fun _ _ hm hs h => update_at_superblock (V := variant64) hm hs h⟩

/-- Settles O44: what one update leaves pending is all the next one needs of its input. -/
theorem anySplitFeedsTheSameStream : Obligations.AnySplitFeedsTheSameStream :=
  ⟨fun _ X Y hm hs => update_update variant32_sb_pos (by decide) hm hs X Y,
    fun _ X Y hm hs => update_update variant64_sb_pos (by decide) hm hs X Y,
    fun _ _ B _ hc => holdsStream_update variant32_sb_pos (by decide) hc B,
    fun _ _ B _ hc => holdsStream_update variant64_sb_pos (by decide) hc B⟩

end Sys2Proof.Proofs

/-! PROOFS. 42_streaming.md, the commands CREATE, RESET, UPDATE, DIGEST and FREE: what each answers when its checks pass
(R200 to R243), a slot over its life, and streaming against one-shot (R234). -/

namespace Sys2Proof.Proofs

open Sys2Proof Sys2Proof.Machine Sys2Proof.Safety Sys2Proof.Laws

/-! ## Phases and free slots (R41, R203) -/

theorem phaseOf_eq_free_iff (x : Option Slot) : phaseOf x = .free ↔ x = none := by
  rcases x with _ | _ | _ | _ <;> simp [phaseOf]

/-- A slot of the block is FREE where the context file does not list it. -/
theorem slotAt_eq_none_iff {s : State} {h : Nat} (h1 : 1 ≤ h) (hN : h ≤ s.config.nCtx) :
    s.slotAt h = none ↔ sparseFind h s.ctx = none := by
  rw [Option.eq_none_iff_forall_ne_some, Option.eq_none_iff_forall_ne_some]
  simp only [ne_eq, slotAt_eq_some_iff, h1, hN, and_self, and_true]

/-- R203: the lowest FREE slot, told by the phases. -/
theorem leastFree_of_phases {s : State} {h : Nat} (h1 : 1 ≤ h) (hN : h ≤ s.config.nCtx)
    (hfree : phaseOf (s.slotAt h) = .free) (hlow : ∀ k, 1 ≤ k → k < h → phaseOf (s.slotAt k) ≠ .free) :
    leastFree s.config s.ctx = some h := by
  refine (leastFree_eq_some_iff _ _ _).2 ⟨⟨h1, hN⟩, ?_, fun k hk hkh => ?_⟩
  · rwa [phaseOf_eq_free_iff, slotAt_eq_none_iff h1 hN] at hfree
  · have := hlow k hk hkh
    rwa [ne_eq, phaseOf_eq_free_iff, slotAt_eq_none_iff hk (by omega)] at this

/-! ## What the commands answer when their checks pass -/

theorem createCommand_of_leastFree {s : State} {h : Nat} (hl : leastFree s.config s.ctx = some h) (w : Width) :
    createCommand w s = .next (((s.withSlot h (.uninit w)).withResult (BitVec.ofNat 64 h)).complete .ok) := by
  rw [createCommand, hl]

theorem slotOperand_of_width {s : State} {h : Nat} {slot : Slot} {w : Width} (hs : s.slotAt h = some slot)
    (hw : slotWidth slot = w) : s.slotOperand w h = .ok slot := by
  rw [slotOperand_of_slot hs, if_pos hw]

theorem resetCommand_of_slot {w : Nat} {V : Variant w} {s : State} {h : Nat} {slot : Slot}
    (hs : s.slotAt h = some slot) (hw : slotWidth slot = V.width) :
    resetCommand V h s = .next ((s.withSlot h (V.ready (freshAcc V (s.valOperand w)))).complete .ok) := by
  rw [resetCommand, slotOperand_of_width hs hw]

theorem updateCommand_of_ready {w : Nat} {V : Variant w} {s : State} {h : Nat} {c : Accumulator w}
    (hc : s.accOperand V h = .ok c) (hr : SpanReadable s s.len.toNat) :
    updateCommand V h s = .next ((s.withSlot h (V.ready (update V c s.input))).complete .ok) := by
  rw [updateCommand, hc]
  exact readingSpan_of_readable hr _

theorem digestCommand_of_ready {w : Nat} {V : Variant w} {s : State} {h : Nat} {c : Accumulator w}
    (hc : s.accOperand V h = .ok c) : digestCommand V h s = .next ((s.withResult (digest V c)).complete .ok) := by
  rw [digestCommand, hc]

theorem freeCommand_zero (w : Width) (s : State) : freeCommand w 0 s = .next (s.complete .ok) := if_pos rfl

theorem freeCommand_of_slot {s : State} {h : Nat} {slot : Slot} {w : Width} (hs : s.slotAt h = some slot)
    (hw : slotWidth slot = w) : freeCommand w h s = .next ((s.freeSlot h).complete .ok) := by
  have hne : h ≠ 0 := Nat.ne_of_gt ((slotAt_eq_some_iff s h slot).1 hs).2.1
  rw [freeCommand, if_neg hne, slotOperand_of_width hs hw]

/-- R187, R229: with no bytes the span's checks pass, whatever PTR holds. -/
theorem spanReadable_zero (s : State) : SpanReadable s 0 where
  notNull h := absurd rfl h
  noWrap h := absurd rfl h
  admitted _ hi := absurd hi (Nat.not_lt_zero _)
  plain _ hi := absurd hi (Nat.not_lt_zero _)

/-! ## The states they leave -/

/-- A completed command that writes one slot and nothing else. -/
theorem exists_next_of_slot_written {i : Instr} {s : State} {h : Nat} {slot x : Slot} (hs : s.slotAt h = some slot)
    (he : exec i s = .next ((s.withSlot h x).complete .ok)) :
    ∃ t, exec i s = .next t ∧ t.slotAt h = some x ∧ (∀ k, k ≠ h → t.slotAt k = s.slotAt k) ∧
      t = { s with ctx := t.ctx, status := withCode s.status .ok } :=
  ⟨_, he, slotAt_withSlot_self (hasSlot_of_slotAt hs) x, fun _ hk => slotAt_withSlot_other hk x,
    withSlot_complete_eq s h x .ok⟩

/-- A completed command that frees one slot and does nothing else. -/
theorem exists_next_of_slot_freed {i : Instr} {s : State} {h : Nat}
    (he : exec i s = .next ((s.freeSlot h).complete .ok)) :
    ∃ t, exec i s = .next t ∧ phaseOf (t.slotAt h) = .free ∧ (∀ k, k ≠ h → t.slotAt k = s.slotAt k) ∧
      t = { s with ctx := t.ctx, status := withCode s.status .ok } :=
  ⟨_, he, (phaseOf_eq_free_iff _).2 (slotAt_freeSlot_self s h), fun _ hk => slotAt_freeSlot_other hk,
    freeSlot_complete_eq s h .ok⟩

/-- A completed CREATE that took slot `h`. -/
theorem exists_next_of_slot_created {i : Instr} {s : State} {h : Nat} {w : Width} (hh : hasSlot s.config h = true)
    (he : exec i s = .next (((s.withSlot h (.uninit w)).withResult (BitVec.ofNat 64 h)).complete .ok)) :
    ∃ t, exec i s = .next t ∧ t.slotAt h = some (.uninit w) ∧ (∀ k, k ≠ h → t.slotAt k = s.slotAt k) ∧
      t = { s with ctx := t.ctx, result := BitVec.ofNat 64 h, status := withCode s.status .ok } := by
  refine ⟨_, he, slotAt_withSlot_self hh _, fun _ hk => slotAt_withSlot_other hk _, ?_⟩
  rw [withResult_complete_eq, BitVec.setWidth_eq]
  rfl

/-- Writing a slot what it holds changes no slot. -/
theorem slotAt_withSlot_of_same {s : State} {h : Nat} {slot : Slot} (hs : s.slotAt h = some slot) (k : Nat) :
    (s.withSlot h slot).slotAt k = s.slotAt k := by
  by_cases hk : k = h
  · rw [hk, hs, slotAt_withSlot_self (hasSlot_of_slotAt hs)]
  · exact slotAt_withSlot_other hk slot

/-! ## The obligations on single commands -/

/-- Settles O27: the phases tell the slot CREATE takes. -/
theorem createTakesLowestFreeSlot : Obligations.CreateTakesLowestFreeSlot := by
  intro s h h1 hN hfree hlow
  have hl := leastFree_of_phases h1 hN hfree hlow
  have hh := (hasSlot_iff s.config h).2 ⟨h1, hN⟩
  exact ⟨exists_next_of_slot_created hh (createCommand_of_leastFree hl .w32),
    exists_next_of_slot_created hh (createCommand_of_leastFree hl .w64)⟩

/-- R204: the fresh accumulator with the 32-bit numbers written out. -/
theorem freshAcc_variant32 (seed : Word32) : freshAcc variant32 seed =
    { lanes :=
        { v1 := seed + 0x9E3779B1#32 + 0x85EBCA77#32
          v2 := seed + 0x85EBCA77#32
          v3 := seed
          v4 := seed - 0x9E3779B1#32 }
      totalLen := 0, large := false, mem := List.replicate 16 0#8, memsize := 0 } := by
  rw [freshAcc, laneInit, BitVec.ofNat_eq_ofNat, BitVec.add_zero]
  rfl

/-- R205: the fresh accumulator with the 64-bit numbers written out. -/
theorem freshAcc_variant64 (seed : Word64) : freshAcc variant64 seed =
    { lanes :=
        { v1 := seed + 0x9E3779B185EBCA87#64 + 0xC2B2AE3D27D4EB4F#64
          v2 := seed + 0xC2B2AE3D27D4EB4F#64
          v3 := seed
          v4 := seed - 0x9E3779B185EBCA87#64 }
      totalLen := 0, large := false, mem := List.replicate 32 0#8, memsize := 0 } := by
  rw [freshAcc, laneInit, BitVec.ofNat_eq_ofNat, BitVec.add_zero]
  rfl

/-- Settles O28: the slot is written with the fresh accumulator of VAL[31:0]. -/
theorem reset32Completes : Obligations.Reset32Completes := by
  intro s h slot hs hw
  rw [← freshAcc_variant32, ← valOperand_32]
  exact exists_next_of_slot_written hs (resetCommand_of_slot (V := variant32) hs hw)

/-- Settles O29: the slot is written with the fresh accumulator of VAL. -/
theorem reset64Completes : Obligations.Reset64Completes := by
  intro s h slot hs hw
  rw [← freshAcc_variant64, ← valOperand_64]
  exact exists_next_of_slot_written hs (resetCommand_of_slot (V := variant64) hs hw)

/-- Settles O30: a READY slot and a readable span pass every check. -/
theorem updateCompletes : Obligations.UpdateCompletes :=
  ⟨fun _ _ _ hs hr => exists_next_of_slot_written hs (updateCommand_of_ready (accOperand32_of_ready hs) hr),
    fun _ _ _ hs hr => exists_next_of_slot_written hs (updateCommand_of_ready (accOperand64_of_ready hs) hr)⟩

/-- Settles O31: the record is written out field by field. -/
theorem digestCompletes : Obligations.DigestCompletes := by
  refine ⟨fun s h c hs => ?_, fun s h c hs => ?_⟩
  · rw [exec_digest32, digestCommand_of_ready (accOperand32_of_ready hs), withResult_complete_eq]
  · rw [exec_digest64, digestCommand_of_ready (accOperand64_of_ready hs), withResult_complete_eq, BitVec.setWidth_eq]

/-- Settles O32: an allocated slot is not slot 0, which FREE passes over. -/
theorem freeCompletes : Obligations.FreeCompletes :=
  ⟨fun _ _ _ hs => ⟨fun hw => exists_next_of_slot_freed (freeCommand_of_slot hs hw),
      fun hw => exists_next_of_slot_freed (freeCommand_of_slot hs hw)⟩,
    fun s => ⟨freeCommand_zero .w32 s, freeCommand_zero .w64 s⟩⟩

/-- R229 for either variant: the accumulator that is written back is the one that was there. -/
theorem exists_next_of_empty_update {w : Nat} {V : Variant w} (hV : 0 < V.sb) {i : Instr} {s : State} {h : Nat}
    (hi : exec i s = updateCommand V h s) {c : Accumulator w} {seed : BitVec w} {X : List Byte}
    (hs : s.slotAt h = some (V.ready c)) (hacc : s.accOperand V h = .ok c) (hc : HoldsStream V seed X c)
    (hlen : s.len = 0) :
    ∃ t, exec i s = .next t ∧ (∀ k, t.slotAt k = s.slotAt k) ∧
      t = { s with ctx := t.ctx, status := withCode s.status .ok } := by
  have hzero : s.len.toNat = 0 := by rw [hlen]; rfl
  have hinput : s.input = [] := by rw [State.input, lenOperand_eq, hzero, bytes_zero]
  have hr : SpanReadable s s.len.toNat := hzero ▸ spanReadable_zero s
  have he : exec i s = .next ((s.withSlot h (V.ready c)).complete .ok) := by
    rw [hi, updateCommand_of_ready hacc hr, hinput, update_nil hV hc]
  exact ⟨_, he, slotAt_withSlot_of_same hs, withSlot_complete_eq s h _ .ok⟩

/-- Settles O45: the rule of either variant; a READY slot passes the handle's checks. -/
theorem emptyUpdateChangesNothing : Obligations.EmptyUpdateChangesNothing :=
  ⟨fun _ h _ _ _ hs hc hlen => exists_next_of_empty_update variant32_sb_pos (exec_update32 h _) hs
      (accOperand32_of_ready hs) hc hlen,
    fun _ h _ _ _ hs hc hlen => exists_next_of_empty_update variant64_sb_pos (exec_update64 h _) hs
      (accOperand64_of_ready hs) hc hlen⟩

/-! ## A second RESET (R206) -/

/-- R36: of two completions the second one's code is left. -/
theorem withCode_withCode (st : Word32) (c d : Code) : withCode (withCode st c) d = withCode st d := by
  have hmask : (codeByte c).setWidth 32 &&& 0xFFFFFF00#32 = 0#32 := by cases c <;> decide
  rw [withCode, withCode, withCode, BitVec.and_or_distrib_right, BitVec.and_assoc, BitVec.and_self, hmask,
    BitVec.or_zero]

/-- R206 for either variant: after a RESET that did not fault, the same RESET writes the slot what it holds. -/
theorem resetCommand_again {w : Nat} {V : Variant w} (hready : ∀ c, slotWidth (V.ready c) = V.width) {s t : State}
    {h : Nat} (he : resetCommand V h s = .next t) (hf : t.faulted = false) :
    ∃ u, resetCommand V h t = .next u ∧ (∀ k, u.slotAt k = t.slotAt k) ∧ u = { t with ctx := u.ctx } := by
  rcases resetCommand_cases V h s with ⟨c, _, hfault⟩ | ⟨slot, hs, _, hdone⟩
  · cases he.symm.trans hfault
    exact absurd hf (by simp)
  · cases he.symm.trans hdone
    have hslot := slotAt_withSlot_self (hasSlot_of_slotAt hs) (V.ready (freshAcc V (s.valOperand w)))
    rw [← slotAt_complete _ .ok] at hslot
    refine ⟨_, resetCommand_of_slot hslot (hready _), slotAt_withSlot_of_same hslot, ?_⟩
    rw [withSlot_complete_eq, complete_status, withCode_withCode]

/-- Settles O46: of the sixteen commands two are RESETs. -/
theorem resetIsIdempotent : Obligations.ResetIsIdempotent := by
  intro i s t hi he hf
  cases i with
  | reset32 h => exact resetCommand_again (V := variant32) (fun _ => rfl) he hf
  | reset64 h => exact resetCommand_again (V := variant64) (fun _ => rfl) he hf
  | _ => cases hi

/-! ## A slot over its life (R200, R243) -/

/-- Settles O49, by what a command can do to one slot: RESET of a READY slot and UPDATE stay within READY. -/
theorem phaseMovesOnlyByR200 : Obligations.PhaseMovesOnlyByR200 := by
  intro i s t h he
  cases exec_slotMove he h with
  | kept hk => exact .inl (by rw [hk])
  | created hi hfree hnew hr => exact .inr (.inl ⟨by rw [hfree]; rfl, hi, hnew, hr⟩)
  | reset a b hi hh ha hb _ _ hready =>
    rw [ha, hb]
    cases a with
    | uninit => exact .inr (.inr (.inl ⟨rfl, hi, hh, hready⟩))
    | ready32 => exact .inl hready
    | ready64 => exact .inl hready
  | updated a b _ _ ha hb _ _ hreadyA hreadyB => exact .inl (by rw [ha, hb, hreadyA, hreadyB])
  | freed a hi hh ha hnone =>
    refine .inr (.inr (.inr ⟨?_, hi, hh, (phaseOf_eq_free_iff _).2 hnone⟩))
    rw [ne_eq, phaseOf_eq_free_iff, ha]
    exact Option.some_ne_none a

section FreeSlot

variable {s : State} {h : Nat} (hs : s.slotAt h = none)
include hs

theorem accOperand_of_free {w : Nat} (V : Variant w) : s.accOperand V h = .error .badHandle := by
  rw [State.accOperand, slotOperand_of_free hs]

theorem resetCommand_of_free {w : Nat} (V : Variant w) :
    resetCommand V h s = .next (s.raiseFault .badHandle) := by
  rw [resetCommand, slotOperand_of_free hs]

theorem updateCommand_of_free {w : Nat} (V : Variant w) :
    updateCommand V h s = .next (s.raiseFault .badHandle) := by
  rw [updateCommand, accOperand_of_free hs]

theorem digestCommand_of_free {w : Nat} (V : Variant w) :
    digestCommand V h s = .next (s.raiseFault .badHandle) := by
  rw [digestCommand, accOperand_of_free hs]

theorem freeCommand_of_free (h0 : h ≠ 0) (w : Width) : freeCommand w h s = .next (s.raiseFault .badHandle) := by
  rw [freeCommand, if_neg h0, slotOperand_of_free hs]

/-- R273: a command that names a FREE slot faults, but for FREE of the null handle. -/
theorem exec_of_free {i : Instr} (hi : i.handle? = some h) (h0 : isFree i = true → h ≠ 0) :
    exec i s = .next (s.raiseFault .badHandle) := by
  cases i with
  | reset32 k => cases hi; exact resetCommand_of_free hs variant32
  | reset64 k => cases hi; exact resetCommand_of_free hs variant64
  | update32 k => cases hi; exact updateCommand_of_free hs variant32
  | update64 k => cases hi; exact updateCommand_of_free hs variant64
  | digest32 k => cases hi; exact digestCommand_of_free hs variant32
  | digest64 k => cases hi; exact digestCommand_of_free hs variant64
  | free32 k => cases hi; exact freeCommand_of_free hs (h0 rfl) .w32
  | free64 k => cases hi; exact freeCommand_of_free hs (h0 rfl) .w64
  | _ => cases hi

end FreeSlot

/-- R240: a FREE of `h` that did not fault leaves slot `h` FREE. -/
theorem slotAt_of_freed {i : Instr} {s t : State} {h : Nat} (hi : isFree i = true) (hh : i.handle? = some h)
    (h0 : h ≠ 0) (he : exec i s = .next t) (hf : t.faulted = false) : t.slotAt h = none := by
  obtain ⟨_, u, c, heff, rfl⟩ := exec_completed he hf
  rw [slotAt_complete]
  cases heff with
  | free k _ _ hk =>
    cases hh.symm.trans hk
    exact slotAt_freeSlot_self s h
  | freeNull _ hk => exact absurd (Option.some.inj (hh.symm.trans hk)) h0
  | createNone hc => exact absurd hc (by simp [isCreate_of_handle hh])
  | createSome _ hc => exact absurd hc (by simp [isCreate_of_handle hh])
  | _ => subst i; cases hi

/-- Settles O51: the slot is FREE after the first command, which the second one's first check finds. -/
theorem staleHandleFaults : Obligations.StaleHandleFaults :=
  fun _ _ _ _ _ hi hh h0 he hf hj => exec_of_free (slotAt_of_freed hi hh h0 he hf) hj fun _ => h0

/-! ## Streaming and one-shot (R234) -/

/-- A DIGEST step of a READY slot that holds the stream `B`, for either variant. -/
theorem step_digest_of_holdsStream {w : Nat} {V : Variant w} {i : Instr} {h : Nat} {t : State} {word : Word32}
    {rest : List HostAction} {c : Accumulator w} {seed : BitVec w} {B : List Byte}
    (hi : ∀ s, exec i s = digestCommand V h s)
    (hacc : ∀ s : State, s.slotAt h = t.slotAt h → s.accOperand V h = .ok c) (hc : HoldsStream V seed B c)
    (hB : B.length < 2 ^ 64) (hf : t.faulted = false) (hscript : t.script = .writeCmd word :: rest)
    (hword : decode word = .ok i) :
    ∃ u, step t = .next u ∧ u.faulted = false ∧ statusCode u.status = codeByte .ok ∧
      u.result = (hashBytes V B seed).setWidth 64 := by
  refine ⟨_, (step_command hf hscript hword).trans ((hi _).trans (digestCommand_of_ready (hacc _ rfl))), ?_, ?_, ?_⟩
  · rw [faulted_complete]
    exact hf
  · rw [complete_status, statusCode_withCode]
  · rw [complete_result, withResult_result, digest_of_holdsStream hc hB]

/-- Settles O47: the slot holds the stream of the bytes fed, and the digest of a stream is its hash. -/
theorem streamingEqualsOneShot : Obligations.StreamingEqualsOneShot := by
  refine ⟨fun h s0 s t B w0 w rest0 rest hscript0 hword0 hstep0 hf0 hfed hB hf hscript hword => ?_,
    fun h s0 s t B w0 w rest0 rest hscript0 hword0 hstep0 hf0 hfed hB hf hscript hword => ?_⟩
  · have hs := slotAt_of_step_reset32 hscript0 hword0 hstep0 hf0
    rw [valOperand_32] at hs
    obtain ⟨c, ht, hc⟩ := fed_holdsStream32 hs hfed
    exact step_digest_of_holdsStream (exec_digest32 h) (fun _ hslot => accOperand32_of_ready (hslot.trans ht)) hc hB
      hf hscript hword
  · have hs := slotAt_of_step_reset64 hscript0 hword0 hstep0 hf0
    rw [valOperand_64] at hs
    obtain ⟨c, ht, hc⟩ := fed_holdsStream64 hs hfed
    have hdigest := step_digest_of_holdsStream (exec_digest64 h)
      (fun _ hslot => accOperand64_of_ready (hslot.trans ht)) hc hB hf hscript hword
    rwa [BitVec.setWidth_eq] at hdigest

end Sys2Proof.Proofs

/-! PROOFS. 43_canonical.md: byte k of the canonical form is byte W/8 - 1 - k of the word (R250), the round trip (R255),
the two host orders (R256), and the commands TOCANON and FROMCANON (R251 to R254). -/

namespace Sys2Proof.Proofs

open Sys2Proof Sys2Proof.Machine Sys2Proof.Safety Sys2Proof.Laws

/-! ## The canonical form and its inverse (R250) -/

/-- R250: byte k of the sequence stands at the same distance from the most significant end of the word. -/
theorem extractLsb'_uncanon (w : Nat) (C : List Byte) {k : Nat} (hk : k < w / 8) :
    (uncanon w C).extractLsb' (w - 8 - 8 * k) 8 = byteAt C k :=
  extractLsb'_orAll_bytes (n := w / 8) (byteAt C) (w - 8 - 8 * ·) hk (by omega) (by omega)

/-- R250, from the least significant byte up. -/
theorem extractLsb'_uncanon_low {w : Nat} (hw : 8 ∣ w) (C : List Byte) {j : Nat} (hj : j < w / 8) :
    (uncanon w C).extractLsb' (8 * j) 8 = byteAt C (w / 8 - 1 - j) := by
  have hplace : 8 * j = w - 8 - 8 * (w / 8 - 1 - j) := by omega
  rw [hplace, extractLsb'_uncanon w C (by omega)]

/-- Sequences of one length are equal when their bytes are. -/
theorem eq_of_byteAt_eq {C D : List Byte} (hlen : C.length = D.length)
    (h : ∀ k < D.length, byteAt C k = byteAt D k) : C = D := by
  refine List.ext_getElem hlen fun k hC hD => ?_
  rw [← byteAt_eq_getElem C k hC, ← byteAt_eq_getElem D k hD, h k hD]

/-- R255: each byte of the word comes back from where `canon` put it. -/
theorem uncanon_canon {w : Nat} (hw : 8 ∣ w) (x : BitVec w) : uncanon w (canon w x) = x := by
  refine eq_of_extractLsb'_bytes hw fun j hj => ?_
  have hplace : w - 8 - 8 * (w / 8 - 1 - j) = 8 * j := by omega
  rw [extractLsb'_uncanon_low hw _ hj, byteAt_canon w _ x (show _ < w / 8 by omega), hplace]

/-- R255: each byte of the sequence comes back from where `uncanon` put it. -/
theorem canon_uncanon {w : Nat} {C : List Byte} (hC : C.length = canonSize w) : canon w (uncanon w C) = C := by
  refine eq_of_byteAt_eq (by rw [canon_length, hC]) fun k hk => ?_
  have hk : k < canonSize w := hC ▸ hk
  rw [byteAt_canon w k _ hk, extractLsb'_uncanon w C hk]

/-! ## The two host orders (R256) -/

/-- A big-endian host lays down the most significant byte first. -/
theorem nativeBytes_big {w : Nat} (hw : 8 ∣ w) (x : BitVec w) : nativeBytes true w x = canon w x := by
  refine List.map_congr_left fun k hk => ?_
  have hk : k < w / 8 := List.mem_range.1 hk
  have hplace : 8 * (w / 8 - 1 - k) = w - 8 - 8 * k := by omega
  exact congrArg (x.extractLsb' · 8) hplace

/-- On a little-endian host the swap cancels the host's own order. -/
theorem nativeBytes_little_bswap {w : Nat} (hw : 8 ∣ w) (x : BitVec w) :
    nativeBytes false w (bswap w x) = canon w x := by
  rw [← nativeBytes_big hw]
  exact List.map_congr_left fun k hk => extractLsb'_bswap x (List.mem_range.1 hk)

theorem hostCanon_eq_canon (big : Bool) {w : Nat} (hw : 8 ∣ w) (x : BitVec w) : hostCanon big w x = canon w x := by
  cases big with
  | false => exact nativeBytes_little_bswap hw x
  | true => exact nativeBytes_big hw x

/-- The canonical bytes read as a little-endian word are in reverse order. -/
theorem bswap_readLE {w : Nat} (hw : 8 ∣ w) (C : List Byte) : bswap w (readLE w C 0) = uncanon w C := by
  refine eq_of_extractLsb'_bytes hw fun j hj => ?_
  rw [extractLsb'_bswap _ hj, extractLsb'_readLE w C 0 (by omega), Nat.zero_add, extractLsb'_uncanon_low hw C hj]

/-- Either host comes to one swap of the little-endian word: the big-endian one by its own order. -/
theorem hostUncanon_eq_uncanon (big : Bool) {w : Nat} (hw : 8 ∣ w) (C : List Byte) :
    hostUncanon big w C = uncanon w C := by
  cases big with
  | false => exact bswap_readLE hw C
  | true => exact bswap_readLE hw C

/-! ## The commands (R251 to R254) -/

/-- RESULT above the width of a value: the bits above the old width are 0. -/
theorem extractLsb'_setWidth_of_ge {w v lo n : Nat} (x : BitVec w) (h : w ≤ lo) :
    (x.setWidth v).extractLsb' lo n = 0#n := by
  apply BitVec.eq_of_getLsbD_eq; intro i hi
  have hzero : x.getLsbD (lo + i) = false := BitVec.getLsbD_of_ge x _ (by omega)
  simp [hzero]

theorem tocanonCommand_of_usable {w : Nat} {s : State} (h : SpanUsable s .write (canonSize w)) :
    tocanonCommand w s =
      .next ({ s with mem := s.mem.writeBytes s.ptr.toNat (canon w (s.valOperand w)) }.complete .ok) :=
  writingSpan_of_usable h _

theorem fromcanonCommand_of_readable {w : Nat} {s : State} (h : SpanReadable s (canonSize w)) :
    fromcanonCommand w s =
      .next ((s.withResult (uncanon w (s.mem.bytes s.ptr.toNat (canonSize w)))).complete .ok) :=
  readingSpan_of_readable h _

/-- What a TOCANON that did not fault has done. -/
theorem tocanonCommand_completed {w : Nat} {s t : State} (h : tocanonCommand w s = .next t)
    (hf : t.faulted = false) :
    t = { s with mem := s.mem.writeBytes s.ptr.toNat (canon w (s.valOperand w)) }.complete .ok := by
  rcases tocanonCommand_cases w s with ⟨c, _, hfault⟩ | ⟨_, hdone⟩
  · cases h.symm.trans hfault
    exact absurd hf (by simp)
  · cases h.symm.trans hdone
    rfl

/-- What a FROMCANON that did not fault has done. -/
theorem fromcanonCommand_completed {w : Nat} {s t : State} (h : fromcanonCommand w s = .next t)
    (hf : t.faulted = false) :
    t = (s.withResult (uncanon w (s.mem.bytes s.ptr.toNat (canonSize w)))).complete .ok := by
  rcases fromcanonCommand_cases w s with ⟨c, _, hfault⟩ | ⟨_, hrefused⟩ | ⟨_, hdone⟩
  · cases h.symm.trans hfault
    exact absurd hf (by simp)
  · cases h.symm.trans hrefused
  · cases h.symm.trans hdone
    rfl

/-- R81: a byte of a block that was written. -/
theorem read_writeBytes_inside (m : Memory) (p : Nat) {bs : List Byte} {k : Nat} (hk : k < bs.length) :
    (m.writeBytes p bs).read (p + k) = byteAt bs k := by
  rw [read_writeBytes, if_pos (by omega), Nat.add_sub_cancel_left, byteAt]

/-- R81: a byte outside a block that was written. -/
theorem read_writeBytes_outside (m : Memory) {p a : Nat} {bs : List Byte} (ha : ¬ (p ≤ a ∧ a < p + bs.length)) :
    (m.writeBytes p bs).read a = m.read a := by
  rw [read_writeBytes, if_neg ha]

/-- R16, R81: a block reads back as it was written. -/
theorem bytes_writeBytes (m : Memory) (p : Nat) (bs : List Byte) : (m.writeBytes p bs).bytes p bs.length = bs := by
  refine eq_of_byteAt_eq (bytes_length _ _ _) fun k hk => ?_
  rw [byteAt_bytes _ _ _ _ hk, read_writeBytes_inside m p hk]

/-- R251, R252 for either width: each byte of VAL, every other byte of memory and the rest of the state. -/
theorem exists_next_of_tocanon {w : Nat} {i : Instr} {s : State} (hi : exec i s = tocanonCommand w s)
    (h : SpanUsable s .write (canonSize w)) :
    ∃ t, exec i s = .next t ∧
      (∀ k, k < canonSize w → t.mem.read (s.ptr.toNat + k) = s.val.extractLsb' (w - 8 - 8 * k) 8) ∧
      (∀ a, ¬ (s.ptr.toNat ≤ a ∧ a < s.ptr.toNat + canonSize w) → t.mem.read a = s.mem.read a) ∧
      t = { s with mem := t.mem, status := withCode s.status .ok } := by
  refine ⟨_, hi.trans (tocanonCommand_of_usable h), fun k hk => ?_, fun a ha => ?_, rfl⟩
  · have hfit : w - 8 - 8 * k + 8 ≤ w := by rw [canonSize] at hk; omega
    rw [complete_mem, read_writeBytes_inside _ _ (by rwa [canon_length]), byteAt_canon w k _ hk, State.valOperand,
      BitVec.extractLsb'_setWidth_of_le hfit]
  · exact read_writeBytes_outside _ (by rwa [canon_length])

/-- R253, R254 for either width: each byte of RESULT, the bits above the width and the rest of the state. -/
theorem exists_next_of_fromcanon {w : Nat} (hw : 8 ∣ w) (hw64 : w ≤ 64) {i : Instr} {s : State}
    (hi : exec i s = fromcanonCommand w s) (h : SpanReadable s (canonSize w)) :
    ∃ t, exec i s = .next t ∧
      (∀ j, j < canonSize w →
        t.result.extractLsb' (8 * j) 8 = s.mem.read (s.ptr.toNat + (canonSize w - 1 - j))) ∧
      t.result.extractLsb' w (64 - w) = 0#(64 - w) ∧
      t = { s with result := t.result, status := withCode s.status .ok } := by
  refine ⟨_, hi.trans (fromcanonCommand_of_readable h), fun j hj => ?_, ?_, rfl⟩
  · have hfit : 8 * j + 8 ≤ 64 := by rw [canonSize] at hj; omega
    rw [complete_result, withResult_result, BitVec.extractLsb'_setWidth_of_le hfit,
      extractLsb'_uncanon_low hw _ hj]
    exact byteAt_bytes _ _ _ _ (Nat.sub_one_sub_lt_of_lt hj)
  · exact extractLsb'_setWidth_of_ge _ (Nat.le_refl w)

/-- R255 for either width: the bytes that FROMCANON reads are the canonical form that TOCANON wrote. -/
theorem fromcanon_after_tocanon {w : Nat} (hw : 8 ∣ w) {s t u v : State} (hto : tocanonCommand w s = .next t)
    (htf : t.faulted = false) (hptr : u.ptr = s.ptr)
    (hkept : ∀ k < canonSize w, u.mem.read (s.ptr.toNat + k) = t.mem.read (s.ptr.toNat + k))
    (hfrom : fromcanonCommand w u = .next v) (hvf : v.faulted = false) :
    v.result = (s.valOperand w).setWidth 64 := by
  have hread : u.mem.bytes u.ptr.toNat (canonSize w) = canon w (s.valOperand w) :=
    calc u.mem.bytes u.ptr.toNat (canonSize w) = t.mem.bytes s.ptr.toNat (canonSize w) := by
          rw [hptr, bytes_congr hkept]
      _ = canon w (s.valOperand w) := by
          rw [tocanonCommand_completed hto htf, complete_mem, ← canon_length w (s.valOperand w)]
          exact bytes_writeBytes _ _ _
  rw [fromcanonCommand_completed hfrom hvf, complete_result, withResult_result, hread, uncanon_canon hw]

/-! ## The obligations -/

/-- 32 and 64 bits are whole bytes. -/
theorem eight_dvd_32 : 8 ∣ 32 := by decide

theorem eight_dvd_64 : 8 ∣ 64 := by decide

/-- Settles O39: the round trip of every width at 32 and 64 bits, with the operand as a slice of VAL. -/
theorem canonicalRoundTrip : Obligations.CanonicalRoundTrip := by
  refine ⟨uncanon_canon eight_dvd_32, uncanon_canon eight_dvd_64, fun _ => canon_uncanon (w := 32),
    fun _ => canon_uncanon (w := 64), fun s t u v hto htf hptr hkept hfrom hvf => ?_,
    fun s t u v hto htf hptr hkept hfrom hvf => ?_⟩
  · rw [← valOperand_32]
    exact fromcanon_after_tocanon eight_dvd_32 hto htf hptr hkept hfrom hvf
  · have hresult := fromcanon_after_tocanon eight_dvd_64 hto htf hptr hkept hfrom hvf
    rwa [BitVec.setWidth_eq, valOperand_64] at hresult

/-- Settles O40: the two host orders at 32 and 64 bits. -/
theorem codecIgnoresHostOrder : Obligations.CodecIgnoresHostOrder :=
  fun big => ⟨hostCanon_eq_canon big eight_dvd_32, hostCanon_eq_canon big eight_dvd_64,
    fun C _ => hostUncanon_eq_uncanon big eight_dvd_32 C, fun C _ => hostUncanon_eq_uncanon big eight_dvd_64 C⟩

/-- Settles O33: the rule of either width. -/
theorem tocanonCompletes : Obligations.TocanonCompletes :=
  ⟨fun s => exists_next_of_tocanon (exec_tocanon32 s), fun s => exists_next_of_tocanon (exec_tocanon64 s)⟩

/-- Settles O34: the rule of either width; a 64-bit RESULT has no bits above the width. -/
theorem fromcanonCompletes : Obligations.FromcanonCompletes := by
  refine ⟨fun s h => exists_next_of_fromcanon eight_dvd_32 (by decide) (exec_fromcanon32 s) h, fun s h => ?_⟩
  obtain ⟨t, ht, hbytes, _, hframe⟩ :=
    exists_next_of_fromcanon eight_dvd_64 (Nat.le_refl 64) (exec_fromcanon64 s) h
  exact ⟨t, ht, hbytes, hframe⟩

end Sys2Proof.Proofs

/-! PROOFS. 60_exceptions.md, how a command ends and what a faulted block still does (R270, R272, R280, R283 to
R285). -/

namespace Sys2Proof.Proofs

open Sys2Proof Sys2Proof.Machine Sys2Proof.Safety Sys2Proof.Laws

/-! ## Fault entry and completion (R270, R283) -/

@[simp] theorem statusCode_raiseFault (s : State) (c : Code) : statusCode (s.raiseFault c).status = codeByte c := by
  rw [raiseFault_status, statusCode_withFault, statusCode_withCode]

theorem raiseFault_inj {s : State} {c d : Code} : s.raiseFault c = s.raiseFault d ↔ c = d := by
  refine ⟨fun h => codeByte_injective ?_, congrArg _⟩
  rw [← statusCode_raiseFault s c, h, statusCode_raiseFault]

/-- R270: CODE tells a fault from a completion. -/
theorem complete_ne_raiseFault {c d : Code} (hc : codeIsFault c = true) (hd : codeIsFault d = false) (s u : State) :
    u.complete d ≠ s.raiseFault c := by
  intro h
  have hcode : codeByte d = codeByte c := by
    rw [← statusCode_raiseFault s c, ← h, complete_status, statusCode_withCode]
  rw [codeByte_injective hcode, hc] at hd
  contradiction

theorem effect_status {i : Instr} {s u : State} {c : Code} (he : Effect i s u c) : u.status = s.status := by
  rw [effect_registers he]

/-- R279: NO_CONTEXT is CREATE's. -/
theorem effect_noContext {i : Instr} {s u : State} (he : Effect i s u .noContext) : isCreate i = true := by
  cases he with
  | createNone hi => exact hi

/-- R294: completion keeps FAULT. -/
theorem effect_complete_faulted {i : Instr} {s u : State} {c : Code} (he : Effect i s u c) :
    (u.complete c).faulted = s.faulted := by
  rw [faulted_complete, faulted_eq, effect_status he, faulted_eq]

/-- R283: a command that sets FAULT has done fault entry and nothing else. -/
theorem exec_faulting {i : Instr} {s t : State} (he : exec i s = .next t) (hs : s.faulted = false)
    (ht : t.faulted = true) : ∃ c, codeIsFault c = true ∧ t = s.raiseFault c := by
  rcases exec_next he with hfault | ⟨u, c, heff, rfl⟩
  · exact hfault
  · rw [effect_complete_faulted heff, hs] at ht
    contradiction

/-- R285: no command clears FAULT. -/
theorem exec_keeps_fault {i : Instr} {s t : State} (hs : s.faulted = true) (he : exec i s = .next t) :
    t.faulted = true := by
  rcases exec_next he with ⟨c, _, rfl⟩ | ⟨u, c, heff, rfl⟩
  · exact faulted_raiseFault s c
  · rw [effect_complete_faulted heff, hs]

/-! ## The word in CMD (R272, R280) -/

theorem runWord_of_illegal {word : Word32} (h : ∃ e, decode word = .error e) (s : State) :
    runWord word s = .next (s.raiseFault .illegalCommand) := by
  obtain ⟨e, he⟩ := h
  rw [runWord, he]

theorem runWord_of_legal {word : Word32} {i : Instr} (h : decode word = .ok i) (s : State) :
    runWord word s = exec i s := by
  rw [runWord, h]

/-- R283, R280: a word that sets FAULT, legal or not, has led to fault entry and nothing else. -/
theorem runWord_faulting {word : Word32} {s t : State} (h : runWord word s = .next t) (hs : s.faulted = false)
    (ht : t.faulted = true) : ∃ c, codeIsFault c = true ∧ t = s.raiseFault c := by
  cases hd : decode word with
  | error e =>
    rw [runWord_of_illegal ⟨e, hd⟩] at h
    cases h
    exact ⟨.illegalCommand, rfl, rfl⟩
  | ok i =>
    rw [runWord_of_legal hd] at h
    exact exec_faulting h hs ht

/-! ## The port at FAULT = 1 (R284, R285) -/

/-- R284: a CMD write, an argument write or a write of a read-only register. -/
def IsRegisterWrite (act : HostAction) : Prop :=
  (∃ word, act = .writeCmd word) ∨ (∃ r v, act = .writeArg r v) ∨ ∃ r v, act = .writeReadOnly r v

theorem step_registerWrite_faulted {s : State} {act : HostAction} {rest : List HostAction} (hf : s.faulted = true)
    (hs : s.script = act :: rest) (hact : IsRegisterWrite act) : step s = .next (s.advance rest) := by
  rcases hact with ⟨word, rfl⟩ | ⟨r, v, rfl⟩ | ⟨r, v, rfl⟩
  · exact step_writeCmd_faulted hf hs
  · have hport : portWriteArg r v (s.advance rest) = s.advance rest := if_pos hf
    rw [step_action hs, hostAct, hport]
  · exact step_action hs

theorem runSteps_succ_of_next {k : Nat} {s t : State} (h : step s = .next t) : runSteps (k + 1) s = runSteps k t := by
  rw [runSteps, h]

/-- R284, by induction over the writes: each is passed over. -/
theorem runSteps_registerWrites_faulted {acts rest : List HostAction} {s : State} (hf : s.faulted = true)
    (hs : s.script = acts ++ rest) (hacts : ∀ a ∈ acts, IsRegisterWrite a) :
    runSteps acts.length s = .next { s with script := rest, position := s.position + acts.length } := by
  induction acts generalizing s with
  | nil => rw [List.nil_append] at hs; rw [← hs]; rfl
  | cons act acts ih =>
    have hstep : step s = .next (s.advance (acts ++ rest)) :=
      step_registerWrite_faulted hf hs (hacts act List.mem_cons_self)
    rw [List.length_cons, runSteps_succ_of_next hstep,
      ih (s := s.advance (acts ++ rest)) hf rfl fun a ha => hacts a (List.mem_cons_of_mem act ha),
      advance_position, Nat.add_right_comm, Nat.add_assoc]
    rfl

/-- R285: at FAULT = 1 an action is the hardware reset or leaves STATUS. -/
theorem hostMove_faulted {act : HostAction} {s t : State} (hf : s.faulted = true) (hm : HostMove act s t) :
    (act = .hardwareReset ∧ t = s.hardwareReset) ∨ t.status = s.status := by
  cases hm with
  | illegal _ _ _ hs => rw [hf] at hs; contradiction
  | command _ _ _ _ hs => rw [hf] at hs; contradiction
  | memory => exact .inr rfl
  | reset hact => exact .inl ⟨hact, rfl⟩
  | quiet _ _ _ _ _ hst => exact .inr hst

theorem faulted_hardwareReset (s : State) : s.hardwareReset.faulted = false := by
  rw [faulted_eq, hardwareReset_status]
  decide

/-- R285: at FAULT = 1 a step is a hardware reset, which ends with FAULT = 0, or it leaves STATUS. -/
theorem step_faulted {s t : State} (hf : s.faulted = true) (h : step s = .next t) :
    (t.faulted = false ∧ ∃ rest, s.script = .hardwareReset :: rest) ∨ t.status = s.status := by
  rcases step_next h with rfl | ⟨act, rest, hs, hm⟩
  · exact .inr rfl
  · rcases hostMove_faulted (s := s.advance rest) hf hm with ⟨rfl, rfl⟩ | hst
    · exact .inl ⟨faulted_hardwareReset _, rest, hs⟩
    · exact .inr hst

/-! ## The obligations -/

/-- Settles O14: fault entry is the two writes of STATUS. -/
theorem faultEntryWritesOnlyStatus : Obligations.FaultEntryWritesOnlyStatus := by
  refine fun s c => ⟨statusCode_raiseFault s c, faulted_raiseFault s c, ?_, rfl⟩
  rw [raiseFault_status, reserved_withFault, reserved_withCode]

/-- Settles O15: fault entry and completion are the two ways a command ends. -/
theorem commandCompletesOrFaultsPrecisely : Obligations.CommandCompletesOrFaultsPrecisely := by
  intro i s t he
  rcases exec_next he with ⟨c, hc, rfl⟩ | ⟨u, c, heff, rfl⟩
  · exact .inl ⟨c, hc, rfl⟩
  · refine .inr ⟨c, effect_code heff, ?_, ?_⟩
    · rw [complete_status, effect_status heff]
    · rintro rfl
      exact effect_noContext heff

/-- Settles O5: the decoder refuses the word, whatever the state. -/
theorem illegalCommandFaults : Obligations.IllegalCommandFaults := by
  intro s word rest hf hs hillegal
  rw [step_writeCmd hf hs, runWord_of_illegal ((decode_error_iff word).2 hillegal)]
  rfl

/-- Settles O10: the fault entry comes from the state in which CMD holds the word. -/
theorem faultRecordsItsCommand : Obligations.FaultRecordsItsCommand := by
  intro s t word rest hf hs h ht
  rw [step_writeCmd hf hs] at h
  obtain ⟨c, hc, rfl⟩ := runWord_faulting h hf ht
  exact ⟨rfl, c, hc, statusCode_raiseFault _ c⟩

/-- Settles O8: the writes are passed over one by one, and a read looks at no flag. -/
theorem faultedPortAcceptsNothing : Obligations.FaultedPortAcceptsNothing :=
  ⟨fun _ _ _ hf hs hacts => runSteps_registerWrites_faulted hf hs hacts, fun _ _ _ _ hs => step_action hs⟩

/-- Settles O9: commands keep FAULT, and of the steps from FAULT = 1 the hardware reset alone writes STATUS. -/
theorem onlyHardwareResetClearsFault : Obligations.OnlyHardwareResetClearsFault := by
  refine ⟨fun i s t hs he => exec_keeps_fault hs he, fun s t hs h ht => ?_, fun s rest hs => ?_,
    fun s t hs h ht => ?_⟩
  · rcases step_faulted hs h with ⟨_, hreset⟩ | hst
    · exact hreset
    · rw [faulted_eq, hst, ← faulted_eq, hs] at ht
      contradiction
  · exact ⟨_, step_action hs, faulted_hardwareReset _, slotAt_hardwareReset _⟩
  · rcases step_faulted hs h with ⟨hclear, _⟩ | hst
    · rw [hclear] at ht
      contradiction
    · exact hst

end Sys2Proof.Proofs

/-! PROOFS. 60_exceptions.md, the checks of R281: one cause for each fault of a command (R271, R273 to R278), and a
command answers fault entry with a fault's code exactly when it has that cause. -/

namespace Sys2Proof.Proofs

open Sys2Proof Sys2Proof.Machine Sys2Proof.Safety Sys2Proof.Laws

/-! ## The checks and their codes (R281) -/

/-- R273: the handles that name no allocated slot. -/
theorem slotAt_eq_none_iff_notAllocated {s : State} {h : Nat} :
    s.slotAt h = none ↔ h = 0 ∨ s.config.nCtx < h ∨ phaseOf (s.slotAt h) = .free := by
  refine ⟨fun hs => .inr (.inr ((phaseOf_eq_free_iff _).2 hs)), fun hbad => ?_⟩
  refine Option.eq_none_iff_forall_ne_some.2 fun slot hs => ?_
  obtain ⟨_, h1, hN⟩ := (slotAt_eq_some_iff s h slot).1 hs
  rcases hbad with h0 | hlt | hfree
  · omega
  · omega
  · cases hs.symm.trans ((phaseOf_eq_free_iff _).1 hfree)

/-- Checks 3 and 4. -/
theorem slotOperand_eq_error_iff {s : State} {w : Width} {h : Nat} {c : Code} :
    s.slotOperand w h = .error c ↔
      (c = .badHandle ∧ s.slotAt h = none) ∨
      (c = .widthMismatch ∧ ∃ slot, s.slotAt h = some slot ∧ slotWidth slot ≠ w) := by
  rcases slotOperand_cases s w h with ⟨hs, ho⟩ | ⟨slot, hs, hw, ho⟩ | ⟨slot, hs, hw, ho⟩
  · simp [hs, ho, eq_comm]
  · simp [hs, ho, hw, eq_comm (a := c)]
  · simp [hs, ho, hw]

/-- Checks 3 to 5, for a variant whose only slot without an accumulator is the UNINIT one. -/
theorem accOperand_eq_error_iff {w : Nat} {V : Variant w}
    (hV : ∀ slot, slotWidth slot = V.width → (V.accOf slot = none ↔ slot = .uninit V.width))
    {s : State} {h : Nat} {c : Code} :
    s.accOperand V h = .error c ↔
      s.slotOperand V.width h = .error c ∨ (c = .notInitialized ∧ s.slotAt h = some (.uninit V.width)) := by
  rcases accOperand_cases s V h with
    ⟨hs, ho⟩ | ⟨slot, hs, hw, ho⟩ | ⟨slot, hs, hw, ha, ho⟩ | ⟨slot, acc, hs, hw, ha, ho⟩
  · simp [ho, slotOperand_of_free hs, hs]
  · have hne : slot ≠ .uninit V.width := fun h => hw (h ▸ rfl)
    simp [ho, slotOperand_of_slot hs, hw, hs, hne]
  · simp [ho, slotOperand_of_width hs hw, hs, (hV slot hw).1 ha, eq_comm]
  · have hne : slot ≠ .uninit V.width := fun h => by simp [(hV slot hw).2 h] at ha
    simp [ho, slotOperand_of_width hs hw, hs, hne]

theorem variant32_width : variant32.width = .w32 := rfl

theorem variant64_width : variant64.width = .w64 := rfl

theorem acc32Of_eq_none_iff (slot : Slot) (hw : slotWidth slot = .w32) :
    acc32Of slot = none ↔ slot = .uninit .w32 := by
  cases slot with
  | uninit w => simpa [acc32Of, slotWidth] using hw
  | ready32 c => simp [acc32Of]
  | ready64 c => cases hw

theorem acc64Of_eq_none_iff (slot : Slot) (hw : slotWidth slot = .w64) :
    acc64Of slot = none ↔ slot = .uninit .w64 := by
  cases slot with
  | uninit w => simpa [acc64Of, slotWidth] using hw
  | ready32 c => cases hw
  | ready64 c => simp [acc64Of]

/-- Checks 6 to 8: the span passes them, or one of the three is the first to fail. -/
theorem span_checks (s : State) (k : AccessKind) (n : Nat) :
    SpanUsable s k n ∨ (n ≠ 0 ∧ s.ptr = 0) ∨ (n ≠ 0 ∧ s.ptr ≠ 0 ∧ 2 ^ 64 < s.ptr.toNat + n) ∨
      ∃ j, s.ptr ≠ 0 ∧ s.ptr.toNat + n ≤ 2 ^ 64 ∧ j < n ∧ admits s.config (s.ptr.toNat + j) k = false := by
  by_cases hnull : n ≠ 0 ∧ s.ptr = 0
  · exact .inr (.inl hnull)
  by_cases hwrap : n ≠ 0 ∧ 2 ^ 64 < s.ptr.toNat + n
  · exact .inr (.inr (.inl ⟨hwrap.1, fun hp => hnull ⟨hwrap.1, hp⟩, hwrap.2⟩))
  by_cases hall : ∀ j < n, admits s.config (s.ptr.toNat + j) k = true
  · exact .inl ⟨fun hn hp => hnull ⟨hn, hp⟩, fun hn => Nat.le_of_not_lt fun hlt => hwrap ⟨hn, hlt⟩, hall⟩
  · push Not at hall
    obtain ⟨j, hj, ha⟩ := hall
    have hn : n ≠ 0 := Nat.ne_zero_of_lt hj
    exact .inr (.inr (.inr ⟨j, fun hp => hnull ⟨hn, hp⟩, Nat.le_of_not_lt fun hlt => hwrap ⟨hn, hlt⟩, hj,
      Bool.eq_false_iff.2 ha⟩))

/-- Checks 6 to 8. -/
theorem spanFault_eq_some_iff {s : State} {k : AccessKind} {n : Nat} {c : Code} :
    s.spanFault k n = some c ↔
      (c = .nullPointer ∧ n ≠ 0 ∧ s.ptr = 0) ∨
      (c = .rangeWrap ∧ n ≠ 0 ∧ s.ptr ≠ 0 ∧ 2 ^ 64 < s.ptr.toNat + n) ∨
      (c = .memoryFault ∧ ∃ j, s.ptr ≠ 0 ∧ s.ptr.toNat + n ≤ 2 ^ 64 ∧ j < n ∧
        admits s.config (s.ptr.toNat + j) k = false) := by
  constructor
  · intro hc
    rcases span_checks s k n with hu | ⟨hn, hp⟩ | ⟨hn, hp, hw⟩ | ⟨j, hp, hw, hj, ha⟩
    · cases hc.symm.trans ((spanFault_eq_none_iff s k n).2 hu)
    · cases hc.symm.trans (spanFault_of_null hn hp)
      exact .inl ⟨rfl, hn, hp⟩
    · cases hc.symm.trans (spanFault_of_wrap hn hp hw)
      exact .inr (.inl ⟨rfl, hn, hp, hw⟩)
    · cases hc.symm.trans (spanFault_of_refused hp hw hj ha)
      exact .inr (.inr ⟨rfl, j, hp, hw, hj, ha⟩)
  · rintro (⟨rfl, hn, hp⟩ | ⟨rfl, hn, hp, hw⟩ | ⟨rfl, j, hp, hw, hj, ha⟩)
    · exact spanFault_of_null hn hp
    · exact spanFault_of_wrap hn hp hw
    · exact spanFault_of_refused hp hw hj ha

/-! ## When each command faults -/

section Commands

variable {s : State} {c : Code} (hc : codeIsFault c = true)
include hc

theorem next_complete_ne_fault (u : State) {d : Code} (hd : codeIsFault d = false) :
    Host.Outcome.next (φ := Fault) (ρ := Refusal) (u.complete d) ≠ .next (s.raiseFault c) :=
  fun h => complete_ne_raiseFault hc hd s u (Host.Outcome.next.inj h)

theorem readingSpan_eq_fault_iff {n : Nat} {k : List Byte → State} (hk : ∀ B, ∃ u, k B = State.complete u .ok) :
    s.readingSpan n k = .next (s.raiseFault c) ↔ s.spanFault .read n = some c := by
  rcases readingSpan_cases s n k with ⟨d, _, hf, ho⟩ | ⟨hu, _, ho⟩ | ⟨hr, ho⟩
  · simp [hf, ho, raiseFault_inj]
  · simp [(spanFault_eq_none_iff s .read n).2 hu, ho]
  · obtain ⟨u, hu⟩ := hk (s.mem.bytes s.ptr.toNat n)
    rw [(spanFault_eq_none_iff s .read n).2 hr.toSpanUsable, ho, hu]
    exact iff_of_false (next_complete_ne_fault hc u rfl) (by simp)

theorem writingSpan_eq_fault_iff (n : Nat) (u : State) :
    s.writingSpan n (u.complete .ok) = .next (s.raiseFault c) ↔ s.spanFault .write n = some c := by
  rcases writingSpan_cases s n (u.complete .ok) with ⟨d, _, hf, ho⟩ | ⟨hu, ho⟩
  · simp [hf, ho, raiseFault_inj]
  · rw [(spanFault_eq_none_iff s .write n).2 hu, ho]
    exact iff_of_false (next_complete_ne_fault hc u rfl) (by simp)

theorem hashCommand_eq_fault_iff {w : Nat} (V : Variant w) :
    hashCommand V s = .next (s.raiseFault c) ↔ s.spanFault .read s.len.toNat = some c :=
  readingSpan_eq_fault_iff hc fun _ => ⟨_, rfl⟩

theorem tocanonCommand_eq_fault_iff (w : Nat) :
    tocanonCommand w s = .next (s.raiseFault c) ↔ s.spanFault .write (canonSize w) = some c :=
  writingSpan_eq_fault_iff hc _ _

theorem fromcanonCommand_eq_fault_iff (w : Nat) :
    fromcanonCommand w s = .next (s.raiseFault c) ↔ s.spanFault .read (canonSize w) = some c :=
  readingSpan_eq_fault_iff hc fun _ => ⟨_, rfl⟩

theorem createCommand_ne_fault (w : Width) : createCommand w s ≠ .next (s.raiseFault c) := by
  rcases createCommand_cases w s with ⟨_, ho⟩ | ⟨h, _, ho⟩
  · rw [ho]
    exact next_complete_ne_fault hc _ rfl
  · rw [ho]
    exact next_complete_ne_fault hc _ rfl

theorem resetCommand_eq_fault_iff {w : Nat} (V : Variant w) (h : Nat) :
    resetCommand V h s = .next (s.raiseFault c) ↔ s.slotOperand V.width h = .error c := by
  unfold resetCommand
  cases s.slotOperand V.width h with
  | error d => simp [raiseFault_inj]
  | ok slot => exact iff_of_false (next_complete_ne_fault hc _ rfl) (by simp)

theorem freeCommand_eq_fault_iff (w : Width) (h : Nat) :
    freeCommand w h s = .next (s.raiseFault c) ↔ h ≠ 0 ∧ s.slotOperand w h = .error c := by
  by_cases h0 : h = 0
  · rw [h0, freeCommand_zero]
    exact iff_of_false (next_complete_ne_fault hc s rfl) (by simp)
  · rw [freeCommand, if_neg h0]
    cases s.slotOperand w h with
    | error d => simp [raiseFault_inj, h0]
    | ok slot => exact iff_of_false (next_complete_ne_fault hc _ rfl) (by simp)

theorem digestCommand_eq_fault_iff {w : Nat} (V : Variant w) (h : Nat) :
    digestCommand V h s = .next (s.raiseFault c) ↔ s.accOperand V h = .error c := by
  unfold digestCommand
  cases s.accOperand V h with
  | error d => simp [raiseFault_inj]
  | ok acc => exact iff_of_false (next_complete_ne_fault hc _ rfl) (by simp)

theorem updateCommand_eq_fault_iff {w : Nat} (V : Variant w) (h : Nat) :
    updateCommand V h s = .next (s.raiseFault c) ↔
      s.accOperand V h = .error c ∨
      (∃ acc, s.accOperand V h = .ok acc) ∧ s.spanFault .read s.len.toNat = some c := by
  unfold updateCommand
  cases s.accOperand V h with
  | error d => simp [raiseFault_inj]
  | ok acc => simpa using readingSpan_eq_fault_iff hc fun _ => ⟨_, rfl⟩

end Commands

/-! ## The causes (R271) -/

/-- The check that fails, those before it having passed: checks 3 and 4 (after check 2, FREE of the null handle), check
5 of UPDATE and DIGEST, checks 6 to 8 of a command that comes to its byte span. -/
inductive FaultCause (i : Instr) (s : State) (c : Code) : Prop
  | handle (h : Nat) : i.handle? = some h → (isFree i = true → h ≠ 0) → s.slotOperand i.width h = .error c →
      FaultCause i s c
  | uninit (h : Nat) : c = .notInitialized → needsReady i = true → i.handle? = some h →
      s.slotAt h = some (.uninit i.width) → FaultCause i s c
  | span (k : AccessKind) (n : Nat) : byteSpan i s = some (k, n) → spanReached i s → s.spanFault k n = some c →
      FaultCause i s c

section Causes

variable {i : Instr} {s : State} {c : Code} {h n : Nat} {k : AccessKind}

/-- CREATE, which names no slot and no bytes. -/
theorem not_faultCause_of_no_check (hh : i.handle? = none) (hb : byteSpan i s = none) : ¬ FaultCause i s c := by
  rintro (⟨_, h'⟩ | ⟨_, _, _, h'⟩ | ⟨_, _, h'⟩)
  · cases hh.symm.trans h'
  · cases hh.symm.trans h'
  · cases hb.symm.trans h'

/-- HASH, TOCANON and FROMCANON. -/
theorem faultCause_iff_of_span (hh : i.handle? = none) (hb : byteSpan i s = some (k, n)) (hr : spanReached i s) :
    FaultCause i s c ↔ s.spanFault k n = some c := by
  refine ⟨?_, .span k n hb hr⟩
  rintro (⟨_, h'⟩ | ⟨_, _, _, h'⟩ | ⟨_, _, h', _, hf⟩)
  · cases hh.symm.trans h'
  · cases hh.symm.trans h'
  · cases hb.symm.trans h'
    exact hf

/-- RESET and FREE. -/
theorem faultCause_iff_of_slot (hh : i.handle? = some h) (hn : needsReady i = false) (hb : byteSpan i s = none) :
    FaultCause i s c ↔ (isFree i = true → h ≠ 0) ∧ s.slotOperand i.width h = .error c := by
  refine ⟨?_, fun ⟨h0, ho⟩ => .handle h hh h0 ho⟩
  rintro (⟨_, h', h0, ho⟩ | ⟨_, _, h', _⟩ | ⟨_, _, h', _⟩)
  · cases hh.symm.trans h'
    exact ⟨h0, ho⟩
  · cases hn.symm.trans h'
  · cases hb.symm.trans h'

/-- UPDATE and DIGEST. -/
theorem faultCause_iff_of_needsReady (hh : i.handle? = some h) (hn : needsReady i = true) (hi : isFree i = false) :
    FaultCause i s c ↔
      (s.slotOperand i.width h = .error c ∨ (c = .notInitialized ∧ s.slotAt h = some (.uninit i.width))) ∨
      ∃ k n, byteSpan i s = some (k, n) ∧ spanReached i s ∧ s.spanFault k n = some c := by
  constructor
  · rintro (⟨_, h', _, ho⟩ | ⟨_, hcode, _, h', hs⟩ | ⟨k, n, hb, hr, hf⟩)
    · cases hh.symm.trans h'
      exact .inl (.inl ho)
    · cases hh.symm.trans h'
      exact .inl (.inr ⟨hcode, hs⟩)
    · exact .inr ⟨k, n, hb, hr, hf⟩
  · rintro ((ho | ⟨hcode, hs⟩) | ⟨k, n, hb, hr, hf⟩)
    · exact .handle h hh (fun hfree => absurd hfree (by simp [hi])) ho
    · exact .uninit h hcode hn hh hs
    · exact .span k n hb hr hf

end Causes

/-- R270, R281: a command faults exactly with the codes it has a cause for. -/
theorem exec_eq_fault_iff {i : Instr} {s : State} {c : Code} (hc : codeIsFault c = true) :
    exec i s = .next (s.raiseFault c) ↔ FaultCause i s c := by
  cases i with
  | hash32 =>
    exact (hashCommand_eq_fault_iff hc variant32).trans (faultCause_iff_of_span (i := .hash32) rfl rfl trivial).symm
  | hash64 =>
    exact (hashCommand_eq_fault_iff hc variant64).trans (faultCause_iff_of_span (i := .hash64) rfl rfl trivial).symm
  | create32 => exact iff_of_false (createCommand_ne_fault hc .w32) (not_faultCause_of_no_check rfl rfl)
  | create64 => exact iff_of_false (createCommand_ne_fault hc .w64) (not_faultCause_of_no_check rfl rfl)
  | reset32 h =>
    rw [exec_reset32, resetCommand_eq_fault_iff hc, faultCause_iff_of_slot rfl rfl rfl]
    simp [isFree, Instr.width, variant32_width]
  | reset64 h =>
    rw [exec_reset64, resetCommand_eq_fault_iff hc, faultCause_iff_of_slot rfl rfl rfl]
    simp [isFree, Instr.width, variant64_width]
  | update32 h =>
    rw [exec_update32, updateCommand_eq_fault_iff hc, accOperand_eq_error_iff acc32Of_eq_none_iff,
      faultCause_iff_of_needsReady rfl rfl rfl]
    simp [accOperand32_eq_ok, byteSpan, spanReached, Instr.width, variant32_width]
  | update64 h =>
    rw [exec_update64, updateCommand_eq_fault_iff hc, accOperand_eq_error_iff acc64Of_eq_none_iff,
      faultCause_iff_of_needsReady rfl rfl rfl]
    simp [accOperand64_eq_ok, byteSpan, spanReached, Instr.width, variant64_width]
  | digest32 h =>
    rw [exec_digest32, digestCommand_eq_fault_iff hc, accOperand_eq_error_iff acc32Of_eq_none_iff,
      faultCause_iff_of_needsReady rfl rfl rfl]
    simp [byteSpan, Instr.width, variant32_width]
  | digest64 h =>
    rw [exec_digest64, digestCommand_eq_fault_iff hc, accOperand_eq_error_iff acc64Of_eq_none_iff,
      faultCause_iff_of_needsReady rfl rfl rfl]
    simp [byteSpan, Instr.width, variant64_width]
  | free32 h =>
    rw [exec_free32, freeCommand_eq_fault_iff hc, faultCause_iff_of_slot rfl rfl rfl]
    simp [isFree, Instr.width]
  | free64 h =>
    rw [exec_free64, freeCommand_eq_fault_iff hc, faultCause_iff_of_slot rfl rfl rfl]
    simp [isFree, Instr.width]
  | tocanon32 =>
    exact (tocanonCommand_eq_fault_iff hc 32).trans (faultCause_iff_of_span (i := .tocanon32) rfl rfl trivial).symm
  | tocanon64 =>
    exact (tocanonCommand_eq_fault_iff hc 64).trans (faultCause_iff_of_span (i := .tocanon64) rfl rfl trivial).symm
  | fromcanon32 =>
    exact (fromcanonCommand_eq_fault_iff hc 32).trans (faultCause_iff_of_span (i := .fromcanon32) rfl rfl trivial).symm
  | fromcanon64 =>
    exact (fromcanonCommand_eq_fault_iff hc 64).trans (faultCause_iff_of_span (i := .fromcanon64) rfl rfl trivial).symm

/-- R271: an unfaulted block's command that answers fault entry has the cause of its code. -/
theorem faultCause_of_exec {i : Instr} {s : State} {c : Code} (hf : s.faulted = false)
    (he : exec i s = .next (s.raiseFault c)) : FaultCause i s c := by
  obtain ⟨d, hd, heq⟩ := exec_faulting he hf (faulted_raiseFault s c)
  cases raiseFault_inj.1 heq
  exact (exec_eq_fault_iff hd).1 he

/-! ## Completions beside the faults (R275, R276, R279) -/

/-- A command that completes with OK, having left STATUS to completion. -/
theorem exists_next_of_complete {i : Instr} {s u : State} (hu : u.status = s.status)
    (he : exec i s = .next (u.complete .ok)) : ∃ t, exec i s = .next t ∧ t.status = withCode s.status .ok :=
  ⟨_, he, by rw [complete_status, hu]⟩

theorem exec_of_uninit {i : Instr} {s : State} {h : Nat} (hh : i.handle? = some h)
    (hs : s.slotAt h = some (.uninit i.width)) (hi : isReset i = true ∨ isFree i = true) :
    ∃ t, exec i s = .next t ∧ t.status = withCode s.status .ok := by
  cases i with
  | reset32 k =>
    cases hh
    exact exists_next_of_complete (withSlot_status s h _) (resetCommand_of_slot (V := variant32) hs rfl)
  | reset64 k =>
    cases hh
    exact exists_next_of_complete (withSlot_status s h _) (resetCommand_of_slot (V := variant64) hs rfl)
  | free32 k =>
    cases hh
    exact exists_next_of_complete (freeSlot_status s h) (freeCommand_of_slot hs rfl)
  | free64 k =>
    cases hh
    exact exists_next_of_complete (freeSlot_status s h) (freeCommand_of_slot hs rfl)
  | _ => rcases hi with hi | hi <;> cases hi

/-- R187, R229: HASH, and UPDATE of a READY slot, of no bytes. -/
theorem exec_of_no_bytes {i : Instr} {s : State} {k : AccessKind} (hb : byteSpan i s = some (k, 0))
    (hr : spanReached i s) : ∃ t, exec i s = .next t ∧ t.status = withCode s.status .ok := by
  have hreadable (hspan : some (AccessKind.read, s.len.toNat) = some (k, 0)) : SpanReadable s s.len.toNat := by
    have hlen : s.len.toNat = 0 := congrArg Prod.snd (Option.some.inj hspan)
    exact hlen ▸ spanReadable_zero s
  cases i with
  | hash32 =>
    exact exists_next_of_complete (withResult_status s _) (hashCommand_of_readable variant32 (hreadable hb))
  | hash64 =>
    exact exists_next_of_complete (withResult_status s _) (hashCommand_of_readable variant64 (hreadable hb))
  | update32 h =>
    obtain ⟨c, hs⟩ := hr
    exact exists_next_of_complete (withSlot_status s h _)
      (updateCommand_of_ready (accOperand32_of_ready hs) (hreadable hb))
  | update64 h =>
    obtain ⟨c, hs⟩ := hr
    exact exists_next_of_complete (withSlot_status s h _)
      (updateCommand_of_ready (accOperand64_of_ready hs) (hreadable hb))
  | _ => cases hb

/-- R279. -/
theorem createCommand_of_full {s : State} (hfull : ∀ h, 1 ≤ h → h ≤ s.config.nCtx → phaseOf (s.slotAt h) ≠ .free)
    (w : Width) : createCommand w s = .next { s with result := 0, status := withCode s.status .noContext } := by
  have hl : leastFree s.config s.ctx = none := (leastFree_eq_none_iff _ _).2 fun h h1 hN => by
    have := hfull h h1 hN
    rwa [ne_eq, phaseOf_eq_free_iff, slotAt_eq_none_iff h1 hN] at this
  rw [createCommand, hl]
  rfl

/-! ## The obligations -/

/-- Settles O24: the cause of the code, read off the check that raised it. -/
theorem faultsOnlyForTheirCause : Obligations.FaultsOnlyForTheirCause := by
  intro i s c hf he
  cases faultCause_of_exec hf he with
  | handle h hh h0 ho =>
    rcases slotOperand_eq_error_iff.1 ho with ⟨rfl, hs⟩ | ⟨rfl, slot, hs, hw⟩
    · exact ⟨h, hh, h0, slotAt_eq_none_iff_notAllocated.1 hs⟩
    · exact ⟨h, slot, hh, hs, hw⟩
  | uninit h hcode hi hh hs =>
    subst hcode
    exact ⟨hi, h, hh, hs⟩
  | span k n hb hr hspan =>
    rcases spanFault_eq_some_iff.1 hspan with ⟨rfl, hcheck⟩ | ⟨rfl, hcheck⟩ | ⟨rfl, j, hcheck⟩
    · exact ⟨k, n, hb, hr, hcheck⟩
    · exact ⟨k, n, hb, hr, hcheck⟩
    · exact ⟨k, n, j, hb, hr, hcheck⟩

/-- Settles O18: check 3 fails. -/
theorem badHandleFaults : Obligations.BadHandleFaults :=
  fun _ _ _ hh h0 hs => exec_of_free (slotAt_eq_none_iff_notAllocated.2 hs) hh h0

/-- Settles O19: check 4 fails; slot 0 is never allocated, so FREE's check 2 has passed. -/
theorem widthMismatchFaults : Obligations.WidthMismatchFaults := by
  intro i h s slot hh hs hw
  obtain ⟨_, h1, _⟩ := (slotAt_eq_some_iff s h slot).1 hs
  have h0 : h ≠ 0 := Nat.ne_of_gt h1
  exact (exec_eq_fault_iff rfl).2
    (.handle h hh (fun _ => h0) (slotOperand_eq_error_iff.2 (.inr ⟨rfl, slot, hs, hw⟩)))

/-- Settles O20: check 5 fails, and RESET and FREE do not make it. -/
theorem notInitializedFaults : Obligations.NotInitializedFaults :=
  fun _ h _ hh hs => ⟨fun hi => (exec_eq_fault_iff rfl).2 (.uninit h rfl hi hh hs), exec_of_uninit hh hs⟩

/-- Settles O21: check 6 fails, but for a span of no bytes. -/
theorem nullPointerFaults : Obligations.NullPointerFaults :=
  ⟨fun _ _ k n hb hr hn hp => (exec_eq_fault_iff rfl).2 (.span k n hb hr (spanFault_of_null hn hp)),
    fun _ _ _ hb hr => exec_of_no_bytes hb hr, fun _ => ⟨rfl, rfl, rfl, rfl⟩⟩

/-- Settles O22: check 7 fails, after check 6 has passed. -/
theorem rangeWrapFaults : Obligations.RangeWrapFaults :=
  fun _ _ k n hb hr hn hp hw =>
    (exec_eq_fault_iff rfl).2 (.span k n hb hr (spanFault_of_wrap (Nat.ne_of_gt hn) hp hw))

/-- Settles O23: check 8 fails at one byte, after checks 6 and 7 have passed. -/
theorem memoryFaultFaults : Obligations.MemoryFaultFaults :=
  fun _ _ k n _ hb hr hp hw hj ha => (exec_eq_fault_iff rfl).2 (.span k n hb hr (spanFault_of_refused hp hw hj ha))

/-- Settles O25: no slot is the lowest FREE one. -/
theorem createWithoutFreeSlot : Obligations.CreateWithoutFreeSlot :=
  fun _ hfull => ⟨createCommand_of_full hfull .w32, createCommand_of_full hfull .w64⟩

end Sys2Proof.Proofs

/-! PROOFS. 70_reset_and_hazards.md: the step at each host action other than a CMD write (R322), the hardware reset
among them (R310, R311). -/

namespace Sys2Proof.Proofs

open Sys2Proof Sys2Proof.Machine Sys2Proof.Safety Sys2Proof.Laws

section HostActions

variable {s : State} {rest : List HostAction}

/-! ## The registers (R32, R39) -/

/-- R32: an unfaulted block stores the argument. -/
theorem step_writeArg {r : ArgReg} {v : Word64} (hf : s.faulted = false) (hs : s.script = .writeArg r v :: rest) :
    step s = .next ((s.advance rest).writeArg r v) := by
  have hunfaulted : ¬ (s.advance rest).faulted = true := Bool.eq_false_iff.1 hf
  have hport : portWriteArg r v (s.advance rest) = (s.advance rest).writeArg r v := if_neg hunfaulted
  rw [step_action hs, hostAct, hport]

/-- R39: a write of a read-only register is passed over, whatever FAULT is. -/
theorem step_writeReadOnly {r : ReadOnlyReg} {v : Word64} (hs : s.script = .writeReadOnly r v :: rest) :
    step s = .next (s.advance rest) := step_action hs

/-- No register tells where the host stands in its list. -/
@[simp] theorem readReg_advance (s : State) (rest : List HostAction) (r : PortReg) :
    (s.advance rest).readReg r = s.readReg r := by
  cases r <;> rfl

/-- R39: a read shows the register and writes none. -/
theorem step_readReg {r : PortReg} (hs : s.script = .readReg r :: rest) :
    step s = .next { s.advance rest with seen := .reg r (s.readReg r) :: s.seen } := by
  rw [step_action hs, hostAct, portReadReg, readReg_advance, advance_seen]

/-! ## Host memory (R70, R321) -/

theorem step_writeMem {a : Nat} {b : Byte} (hs : s.script = .writeMem a b :: rest) (ha : a < 2 ^ 64) :
    step s = .next { s.advance rest with mem := s.mem.write a b } := by
  rw [step_action hs, hostAct, hostWriteMem, if_pos ha, advance_mem]

/-- R322, R87: a read of a plain byte of the space shows it. -/
theorem step_readMem {a : Nat} (hs : s.script = .readMem a :: rest) (ha : a < 2 ^ 64)
    (hplain : readHasSideEffect s.config a = false) :
    step s = .next { s.advance rest with seen := .byte a (s.mem.read a) :: s.seen } := by
  have hinside : ¬ 2 ^ 64 ≤ a := Nat.not_le.2 ha
  have hadmits : ¬ readHasSideEffect (s.advance rest).config a = true := Bool.eq_false_iff.1 hplain
  rw [step_action hs, hostAct, hostReadMem, if_neg hinside, if_neg hadmits]
  rfl

/-! ## The reset input (R310) -/

theorem step_hardwareReset (hs : s.script = .hardwareReset :: rest) :
    step s = .next (s.advance rest).hardwareReset := step_action hs

end HostActions

/-! ## The obligations -/

/-- Settles O7: the rule of each action; a written byte reads back and no other byte moves. -/
theorem hostActionsDoWhatR322Says : Obligations.HostActionsDoWhatR322Says := by
  intro s rest
  refine ⟨?ptr, ?len, ?val, ?readOnly, ?readReg, ?writeMem, ?readMem, ?idle⟩
  case ptr => exact fun v hf hs => step_writeArg hf hs
  case len => exact fun v hf hs => step_writeArg hf hs
  case val => exact fun v hf hs => step_writeArg hf hs
  case readOnly => exact fun r v hs => step_writeReadOnly hs
  case readReg => exact fun r hs => step_readReg hs
  case writeMem =>
    intro a b hs ha
    exact ⟨_, step_writeMem hs ha, rfl, read_write_same s.mem a b, fun _ hne => read_write_other hne s.mem b⟩
  case readMem => exact fun a hs ha hplain => step_readMem hs ha hplain
  case idle => exact step_idle

/-- Settles O11: the reset of the block once the host's list has moved on. -/
theorem hardwareResetSetsTheResetState : Obligations.HardwareResetSetsTheResetState :=
  fun _ _ hs => step_hardwareReset hs

end Sys2Proof.Proofs
